-- ==== Sys2Proof/Word.lean ====
section
/-! DEFINITION. The widths of the ports and of the fields on them, as abbreviations of bit vectors
(00_scope.md R7, R8; 10_state.md R22). Bit 0 is the least significant bit throughout (R9). -/

namespace Sys2Proof

/-- A record byte, or one 8-bit coefficient lane (`W_IN` = `W_OUT` = 8, R8). -/
abbrev Byte := BitVec 8

/-- A nibble: "4 contiguous bits" (R13). -/
abbrev Nibble := BitVec 4

/-- The command word `cmd` (`CMD_W` = 9, R8, R51). -/
abbrev Cmd := BitVec 9

/-- The `len` field of the command word (`LEN_W` = 8, R8, R54). -/
abbrev Len := BitVec 8

/-- A coefficient bus, `coeff_in` or `coeff_out`: 32 lanes of 8 bits (R22, R55, R57). -/
abbrev CoeffBus := BitVec 256

/-- A record bus, `rec_in` or `rec_out`: one 20-byte packed record (R22, R34). -/
abbrev RecBus := BitVec 160

/-- The high-bit plane `high_bits` (`HW` = 32, R7). -/
abbrev HighBits := BitVec 32

/-- The raw `status` port (`ST_W` = 2, R8, R94). -/
abbrev StatusCode := BitVec 2

end Sys2Proof
end

