-- ==== Sys2Proof/Syntax.lean ====
section
/-! DEFINITION. The two operations of the block (30_encoding.md R53, R64), one constructor for each row
of the opcode table, and the lines of the spec's assembler syntax (R66, R68). -/

namespace Sys2Proof

/-- The operation a command word selects. The operands are on the data ports, which are in
`Machine.State`; an instruction carries what the command word carries (R51, R52). -/
inductive Instr where
  /-- PACK: `cmd[8] = 0`, `cmd[7:0] = len` (R64, R69). -/
  | pack (len : Len)
  /-- UNPACK: `cmd[8] = 1`; `cmd[7:0]` is kept as written and read by nothing (R64, R65, R77). -/
  | unpack (ignored : Len)
  deriving DecidableEq, Repr

/-- A line of the assembler syntax, with its numbers as written (R66, R68). -/
inductive Line where
  /-- `PACK <len>, {<c0>, ..., <c31>}` (R66). -/
  | pack (len : Nat) (lanes : List Nat)
  /-- `UNPACK [<b0> ... <b19>]` (R66). -/
  | unpack (bytes : List Nat)
  /-- The pseudo-instruction `PACKL {<v0>, ...}` over integers of any size (R68). -/
  | packl (values : List Int)
  deriving DecidableEq, Repr

end Sys2Proof
end

