-- ==== Sys2Proof/WellFormed.lean ====
section
/-! DEFINITION. Well-formedness. Every request is legal, so every instruction is well formed
(30_encoding.md R63, 10_state.md R23); an assembler line is well formed when it has the counts and the
ranges R66 gives. -/

namespace Sys2Proof

/-- "The block has no reserved, illegal or hint encoding" (R63): every instruction is well formed. -/
def Instr.wellFormed : Instr → Bool
  | .pack _ => true
  | .unpack _ => true

/-- A list of numbers each of which fits in a byte. -/
def fitBytes (l : List Nat) : Bool := l.all fun n => decide (n ≤ 255)

/-- R66: `<len>` is 0 to 255, a PACK line has exactly 32 lane values of 0 to 255, an UNPACK line exactly
20 bytes. R68: a PACKL line may have any length and any integers. -/
def Line.wellFormed : Line → Bool
  | .pack len lanes => decide (len ≤ 255) && decide (lanes.length = 32) && fitBytes lanes
  | .unpack bytes => decide (bytes.length = 20) && fitBytes bytes
  | .packl _ => true

end Sys2Proof
end

