-- ==== Sys2Proof/Decode.lean ====
section
/-! DEFINITION. Decoding a command word (30_encoding.md R51 to R54, R63, R64), the encoder beside it, and
the byte form of a command word in which the opcode table's numbering is read. -/

namespace Sys2Proof

/-- The `op` field, `cmd[8]`: false is PACK, true is UNPACK (R51, R53). -/
def cmdOp (c : Cmd) : Bool := c.getLsbD 8

/-- The `len` field, `cmd[7:0]` (R51, R54). -/
def cmdLen (c : Cmd) : Len := c.extractLsb' 0 8

/-- Decode a command word. All 512 of them select an operation (R53, R63). -/
def decodeCmd (c : Cmd) : Instr :=
  if cmdOp c then .unpack (cmdLen c) else .pack (cmdLen c)

/-- `cmd = (op, len)`, `op` in bit 8 (R51, R67). -/
def encode : Instr → Cmd
  | .pack len => 0#1 ++ len
  | .unpack ignored => 1#1 ++ ignored

/-- Why bytes are not a command word. -/
inductive DecodeError where
  /-- Fewer than the two bytes a command word takes (log entry 7). -/
  | truncated
  /-- A bit above bit 8 is set: a command word has 9 bits (R51; log entry 7). -/
  | notACommandWord
  deriving DecidableEq, Repr

/-- A number as a command word, where it has no bit above bit 8. -/
def cmdOfNat (n : Nat) : Option Cmd :=
  if n < 512 then some (BitVec.ofNat 9 n) else none

/-- Decode the first command word of some bytes, low byte first, and give the bytes left.
DESIGN CHOICE: the spec gives the word a port and no byte layout (log entry 7). -/
def decode : List Byte → Except DecodeError (Instr × List Byte)
  | lo :: hi :: rest =>
    match cmdOfNat (lo.toNat + 256 * hi.toNat) with
    | some c => .ok (decodeCmd c, rest)
    | none => .error .notACommandWord
  | _ => .error .truncated

/-- The two bytes of an instruction's command word, low byte first (log entry 7). -/
def encodeBytes (i : Instr) : List Byte :=
  [(encode i).extractLsb' 0 8, ((encode i).extractLsb' 8 1).setWidth 8]

/-- The bytes of the `nbits` low bits of a number, laid out as two bytes, low byte first: bits from
`nbits` on are 0. -/
def wordBytes (nbits w : Nat) : List Byte :=
  [BitVec.ofNat 8 (w % 2 ^ nbits), BitVec.ofNat 8 (w % 2 ^ nbits / 256)]

/-- The instruction the decoder reads from a word numbered as the opcode table numbers it: bit 8 is
`op`. A word with a bit above bit 15 is refused before it is laid out. -/
def decodeTableWord (nbits w : Nat) : Option Instr :=
  if w % 2 ^ nbits < 65536 then
    match decode (wordBytes nbits w) with
    | .ok (i, _) => some i
    | .error _ => none
  else none

end Sys2Proof
end

