-- ==== Sys2Proof/Machine/Operands.lean ====
section
/-! DEFINITION. The fields of the data ports and how a bus is put together from parts: lanes, record
bytes, nibbles, the high-bit plane (00_scope.md R10; 20_memory.md R31 to R39; 30_encoding.md R55 to R57). -/

namespace Sys2Proof.Machine

/-- `lane(bus, i) = bus[8i+7:8i]` (R10, R55). -/
def lane (bus : CoeffBus) (i : Nat) : Byte := bus.extractLsb' (8 * i) 8

/-- `byte(rec, k) = rec[8k+7:8k]` (R10, R34). -/
def recByte (r : RecBus) (k : Nat) : Byte := r.extractLsb' (8 * k) 8

/-- `high_bits = rec[159:128]` (R36). -/
def recHighBits (r : RecBus) : HighBits := r.extractLsb' 128 32

/-- The low nibble, bits 3 to 0 (R35). -/
def lowNibble (b : Byte) : Nibble := b.extractLsb' 0 4

/-- The high nibble, bits 7 to 4 (R35). -/
def highNibble (b : Byte) : Nibble := b.extractLsb' 4 4

/-- Bit 4 of a coefficient, its high bit (R13, R71). -/
def highBit (b : Byte) : Bool := b.getLsbD 4

/-- The concatenation of `n` bytes, byte 0 least significant (R10). -/
def concatBytes : (n : Nat) → (Nat → Byte) → BitVec (8 * n)
  | 0, _ => 0#0
  | n + 1, f => (f n ++ concatBytes n f).cast (by omega)

/-- The vector of `n` bits, bit 0 least significant. -/
def gatherBits : (n : Nat) → (Nat → Bool) → BitVec n
  | 0, _ => 0#0
  | n + 1, f => (gatherBits n f).cons (f n)

/-- A coefficient bus whose lane `i` is `f i` (R55, R57). -/
def coeffBusOf (f : Nat → Byte) : CoeffBus := (concatBytes 32 f).cast (by decide)

/-- The record with these low-nibble bytes and this high-bit plane (R31, R34, R36). -/
def recordOf (low : Nat → Byte) (high : HighBits) : RecBus :=
  (high ++ concatBytes 16 low).cast (by decide)

/-- The record whose byte `k` is `f k` (R34). -/
def recordOfBytes (f : Nat → Byte) : RecBus := (concatBytes 20 f).cast (by decide)

/-- Record bytes `4m` to `4m+3` read as a little-endian word (R39). -/
def recWordLE (r : RecBus) (m : Nat) : BitVec 32 :=
  recByte r (4 * m + 3) ++ recByte r (4 * m + 2) ++ recByte r (4 * m + 1) ++ recByte r (4 * m)

/-- The same four bytes read big-endian: for bytes 16 to 19 this is "a different number" from
`high_bits` (R39). -/
def recWordBE (r : RecBus) (m : Nat) : BitVec 32 :=
  recByte r (4 * m) ++ recByte r (4 * m + 1) ++ recByte r (4 * m + 2) ++ recByte r (4 * m + 3)

end Sys2Proof.Machine
end

