-- ==== Sys2Proof/Config.lean ====
section
/-! DEFINITION. What one implementation fixes and the spec leaves open: the propagation delay, and the
values the output ports carry before a request has settled. Each is a constant without a body, so that
nothing can be proved of its value. The parameters the spec fixes (R7, R8) are numerals in the types of
Word.lean and in the definitions. -/

namespace Sys2Proof

/-- `T_PD`, the propagation delay, in any unit of time (R8, R115; 92_eei_decisions.md D18: OPEN).
Only `Machine.State.holdFor` reads it; no instruction and no step does (R120). Log entry 6. -/
opaque Config.tPd : Nat

/-- What the `status` port carries at the `n`-th unsettled moment: any value (R113, R117). Log entry 3. -/
opaque Config.unsettledStatus : Nat → StatusCode

/-- What the `rec_out` port carries at the `n`-th unsettled moment: any value (R113, R117). Log entry 3. -/
opaque Config.unsettledRec : Nat → RecBus

/-- What the `coeff_out` port carries at the `n`-th unsettled moment: any value (R113, R117). Log entry 3. -/
opaque Config.unsettledCoeff : Nat → CoeffBus

end Sys2Proof
end

