-- ==== Sys2Proof/Machine/State.lean ====
section
/-! DEFINITION. The state: the six ports of 10_state.md R22, whether they have settled (R115), and the
host at the other end of them (R26, R29). The block itself holds nothing (R15 to R21): no register, no
program counter, no flag, no memory. Plain data. -/

namespace Sys2Proof.Machine

/-- The outcome of an evaluation (60_exceptions.md R94). Code 3 has no constructor. -/
inductive Status where
  | ok
  | invalidLength
  | outOfRange
  deriving DecidableEq, Repr

/-- What the host drives: "a request is the triple `(cmd, coeff_in, rec_in)`" (R23). -/
structure Request where
  cmd     : Cmd
  coeffIn : CoeffBus
  recIn   : RecBus
  deriving DecidableEq, Repr

/-- What the block answers: "the triple `(status, rec_out, coeff_out)`" (R23). -/
structure Response where
  status   : Status
  recOut   : RecBus
  coeffOut : CoeffBus
  deriving DecidableEq, Repr

/-- Ports and host. Log entry 1 says why a stateless block has these fields. -/
structure State where
  /-- Input port `cmd` (R22, R51). -/
  cmd      : Cmd
  /-- Input port `coeff_in` (R22, R55). -/
  coeffIn  : CoeffBus
  /-- Input port `rec_in` (R22, R56). -/
  recIn    : RecBus
  /-- Output port `status`, as raw bits, since unsettled it may carry any value (R94, R117). -/
  status   : StatusCode
  /-- Output port `rec_out` (R22, R58). -/
  recOut   : RecBus
  /-- Output port `coeff_out` (R22, R57). -/
  coeffOut : CoeffBus
  /-- The request on the input ports has been held for `T_PD` (R115). -/
  settled  : Bool
  /-- The host's: the requests of its program it has not presented yet (R29). -/
  pending  : List Request
  /-- The host's: the responses it has sampled, oldest first, the observation of the run (R29). -/
  sampled  : List Response
  /-- The model's own: the number of the next free draw of unsettled outputs (log entry 3). -/
  draws    : Nat
  deriving DecidableEq, Repr

/-- Why the machine stops. -/
inductive Fault where
  /-- Raised by the host's sample (`State.sample`) when the `status` port carries 3: "a model that reads 3
  from a device reports a fault" (R94). The block never drives 3 (R63), so only a sample of unsettled
  outputs can raise it. Safe. -/
  | statusThree
  deriving DecidableEq, Repr

/-- Why an instruction has no meaning. The block refuses nothing (R26, R63). -/
inductive Refusal where
  /-- Raised by an arm of `exec` whose instruction has no meaning yet. No arm is such. Safe. -/
  | notModelled (mnemonic : String)
  deriving DecidableEq, Repr

/-- Right after power-up (R112, R113): nothing is stored, the outputs carry any value (free draw 0), no
request has settled. Input ports 0 and an empty script are the model's choice (log entries 2, 3, 11). -/
def State.reset : State where
  cmd      := 0#9
  coeffIn  := 0#256
  recIn    := 0#160
  status   := Config.unsettledStatus 0
  recOut   := Config.unsettledRec 0
  coeffOut := Config.unsettledCoeff 0
  settled  := false
  pending  := []
  sampled  := []
  draws    := 1

end Sys2Proof.Machine
end

