-- ==== Sys2Proof/Machine/Flags.lean ====
section
/-! DEFINITION. The status of an evaluation: its codes (60_exceptions.md R94) and the two checks of PACK
that decide it (42_validation.md R86, R87; R97). -/

namespace Sys2Proof.Machine

/-- The code on the `status` port (R94). -/
def Status.code : Status → StatusCode
  | .ok => 0#2
  | .invalidLength => 1#2
  | .outOfRange => 2#2

/-- The status a code stands for; code 3 stands for none (R94). -/
def Status.ofCode (c : StatusCode) : Option Status :=
  if c = 0#2 then some .ok
  else if c = 1#2 then some .invalidLength
  else if c = 2#2 then some .outOfRange
  else none

/-- `length_ok = (cmd[7:0] == 32)` (R86). It reads no lane (R89). -/
def lengthOk (len : Len) : Bool := len == 32#8

/-- `range_ok`: every lane is at most 31, all 32 lanes and all 8 bits of each (R87, R88). -/
def rangeOk (bus : CoeffBus) : Bool := (List.range 32).all fun i => decide (lane bus i ≤ 31#8)

/-- R87's second form, the one a circuit uses: no lane has bit 5, 6 or 7. -/
def rangeOkByMask (bus : CoeffBus) : Bool :=
  ((List.range 32).foldl (fun acc i => acc ||| lane bus i) 0#8) &&& 0xE0#8 == 0#8

/-- The outcome of PACK's validation: the length error comes first (R90, R97). -/
def packStatus (len : Len) (bus : CoeffBus) : Status :=
  if !lengthOk len then .invalidLength
  else if !rangeOk bus then .outOfRange
  else .ok

end Sys2Proof.Machine
end

