-- ==== Sys2Proof/Machine/Ops.lean ====
section
/-! DEFINITION. The shared operations: raising an error, driving the output ports, and what the host does
at the ports (present a request, sample the response, record it, go on to its next request). The block
has no trap to take and none to return from (60_exceptions.md R102, R103): an error is a response. -/

namespace Sys2Proof.Machine

/-- End an evaluation with an error: its code, and `rec_out` and `coeff_out` 0 (R11, R98). It records
nothing else (R95, R96). -/
def raise (e : Status) : Response := ⟨e, 0#160, 0#256⟩

/-- The request on the input ports (R23, R25). -/
def State.request (s : State) : Request := ⟨s.cmd, s.coeffIn, s.recIn⟩

/-- The output ports carry this response, settled (R11, R115). -/
def State.drive (s : State) (r : Response) : State :=
  { s with status := r.status.code, recOut := r.recOut, coeffOut := r.coeffOut, settled := true }

/-- The output ports carry any value: the next free draw (R113, R117). -/
def State.unsettle (s : State) : State :=
  { s with
    status := Config.unsettledStatus s.draws
    recOut := Config.unsettledRec s.draws
    coeffOut := Config.unsettledCoeff s.draws
    settled := false
    draws := s.draws + 1 }

/-- The host drives a request onto the input ports (R27). Where that changes an input bit the outputs are
unsettled (R117); where it changes none, the request is still held (R115; log entry 4). -/
def State.present (s : State) (q : Request) : State :=
  if q = s.request then s
  else { s with cmd := q.cmd, coeffIn := q.coeffIn, recIn := q.recIn }.unsettle

/-- The host reads the output ports as they are (R116). Unsettled, what it reads is a draw and no
response (R117); a status of 3 is a fault (R94). -/
def State.sample (s : State) : Except Fault Response :=
  match Status.ofCode s.status with
  | some st => .ok ⟨st, s.recOut, s.coeffOut⟩
  | none => .error .statusThree

/-- The host adds a response to its observation (R29). -/
def State.record (s : State) (r : Response) : State := { s with sampled := s.sampled ++ [r] }

/-- The host goes on to the next request of its program; after the last it holds the request it has
(R29; log entry 13). -/
def State.advance (s : State) : State :=
  match s.pending with
  | [] => s
  | q :: rest => { s with pending := rest }.present q

/-- The host's turn after an evaluation: it samples while the request is still held, then goes on (R116,
R119). -/
def State.hostTurn (s : State) : Host.Outcome State Fault Refusal :=
  match s.sample with
  | .ok r => .next (s.record r).advance
  | .error f => .fault f

/-- The operation of the next evaluation: "the command word is an input port, read afresh at each
evaluation" (R49, R17). -/
def fetch (s : State) : Instr := decodeCmd s.cmd

end Sys2Proof.Machine
end

