-- ==== Sys2Proof/Machine/Pack.lean ====
section
/-! DEFINITION. PACK (40_pack.md): the concatenator, the extractor, the whole response, and the meaning. -/

namespace Sys2Proof.Machine

/-- Record byte `j`: `(c[j+16][3:0], c[j][3:0])`, coefficient `j` in the low nibble (R70). -/
def packByte (c : CoeffBus) (j : Nat) : Byte :=
  lowNibble (lane c (j + 16)) ++ lowNibble (lane c j)

/-- The high-bit plane: bit `i` is `c[i][4]` (R71). -/
def packHighBits (c : CoeffBus) : HighBits := gatherBits 32 fun i => highBit (lane c i)

/-- The datapath: 16 low-nibble bytes under the high-bit plane (R69, R72). -/
def packRecord (c : CoeffBus) : RecBus := recordOf (packByte c) (packHighBits c)

/-- The response of PACK. The record reaches `rec_out` only when both checks pass (R69, R85, R98), and
`coeff_out` is 0 always (R74). -/
def pack (len : Len) (c : CoeffBus) : Response :=
  match packStatus len c with
  | .ok => ⟨.ok, packRecord c, 0#256⟩
  | e => raise e

/-- One piece of the source's two passes, OR-ed into the record so far. Piece `k` below 16 writes byte `k` as
`(lb1 << 4) | lb0` (R70); piece `16 + j` writes the high bits of coefficients `j` and `j + 16` (R71). -/
def packPiece (c : CoeffBus) (acc : RecBus) (k : Nat) : RecBus :=
  if k < 16 then
    acc ||| (((lane c (k + 16) &&& 0x0F#8) <<< 4 ||| (lane c k &&& 0x0F#8)).setWidth 160 <<< (8 * k))
  else
    acc ||| (((lane c (k - 16) >>> 4) &&& 1#8).setWidth 160 <<< (128 + (k - 16)))
      ||| (((lane c k >>> 4) &&& 1#8).setWidth 160 <<< (128 + k))

/-- The pieces run in a given order, from a record of zeros: pass after pass, fused, or any other (R72). -/
def packInOrder (c : CoeffBus) (order : List Nat) : RecBus := order.foldl (packPiece c) 0#160

/-- PACK (R69): the response of the request on the ports. `rec_in` is not read (R65). -/
def execPack (len : Len) (s : State) : Host.Outcome State Fault Refusal :=
  .next (s.drive (pack len s.coeffIn))

end Sys2Proof.Machine
end

