-- ==== Sys2Proof/Machine/Unpack.lean ====
section
/-! DEFINITION. UNPACK (41_unpack.md): the distributor, the whole response, and the meaning. -/

namespace Sys2Proof.Machine

/-- Coefficient `j` of a record: `zext_8(h, nib)`, the nibble from byte `j mod 16`, its low half for
`j < 16` and its high half otherwise (R77, R78). -/
def unpackLane (r : RecBus) (j : Nat) : Byte :=
  let b := recByte r (j % 16)
  let nib := if j < 16 then lowNibble b else highNibble b
  ((BitVec.ofBool (r.getLsbD (128 + j)) ++ nib : BitVec (1 + 4))).setWidth 8

/-- The response of UNPACK: always OK (R79, R101), `rec_out` 0 (R80). -/
def unpack (r : RecBus) : Response := ⟨.ok, 0#160, coeffBusOf (unpackLane r)⟩

/-- UNPACK (R77): the response of the request on the ports. `cmd[7:0]` and `coeff_in` are not read
(R65). -/
def execUnpack (_ignored : Len) (s : State) : Host.Outcome State Fault Refusal :=
  .next (s.drive (unpack s.recIn))

end Sys2Proof.Machine
end

