-- ==== Sys2Proof/Machine/Dispatch.lean ====
section
/-! DEFINITION. One arm for each operation (10_state.md R24; 30_encoding.md R64). -/

namespace Sys2Proof.Machine

def exec (i : Instr) (s : State) : Host.Outcome State Fault Refusal :=
  match i with
  | .pack len => Sys2Proof.Machine.execPack len s
  | .unpack ignored => Sys2Proof.Machine.execUnpack ignored s

end Sys2Proof.Machine
end

