-- ==== Sys2Proof/Machine/Step.lean ====
section
/-! DEFINITION. The step: one evaluation of the held request, then the host's turn (10_state.md R24, R26,
R29; 70_reset_and_hazards.md R116). Log entries 5 and 9. -/

namespace Sys2Proof.Machine

/-- Hold the request until it settles, sample the response, and go on to the next request. -/
def step (s : State) : Host.Outcome State Fault Refusal :=
  match exec (fetch s) s with
  | .next t => t.hostTurn
  | .fault f => .fault f
  | .refused r => .refused r

/-- The host drives this command word, low 9 bits, and leaves the data ports as they are. -/
def State.withFetchWord (s : State) (nbits w : Nat) : State :=
  s.present ⟨BitVec.ofNat 9 (w % 2 ^ nbits), s.coeffIn, s.recIn⟩

end Sys2Proof.Machine
end

