-- ==== Sys2Proof/Machine/Eval.lean ====
section
/-! DEFINITION. `Eval`, the block as the pure function of 10_state.md R24, and what the ports carry over
time (70_reset_and_hazards.md R115, R117). -/

namespace Sys2Proof.Machine

/-- `Eval : Request → Response` (R24). -/
def eval (q : Request) : Response :=
  if cmdOp q.cmd then unpack q.recIn else pack (cmdLen q.cmd) q.coeffIn

/-- The host holds the request for `t` more time units, counted from when it last changed an input. Held
for at least `T_PD`, the outputs carry `Eval` of it, and keep carrying it; before that they carry any
value (R115, R117; log entries 6, 15). -/
def State.holdFor (s : State) (t : Nat) : State :=
  if s.settled || decide (Config.tPd ≤ t) then s.drive (eval s.request) else s.unsettle

end Sys2Proof.Machine
end

