-- ==== Sys2Proof/Machine/HostEncoding.lean ====
section
/-! DEFINITION. The host's side of a request: how the source's values become port bits and come back
(30_encoding.md R59 to R62, R68). -/

namespace Sys2Proof.Machine

/-- `len = L`, saturated at 255 (R59). -/
def encLen (n : Nat) : Len := if n ≤ 255 then BitVec.ofNat 8 n else 255#8

/-- `enc(v)`: `v` where it fits in a byte, 255 otherwise, never a value clamped into range (R60). -/
def encElem (v : Int) : Byte := if 0 ≤ v ∧ v ≤ 255 then BitVec.ofNat 8 v.toNat else 255#8

/-- Lane `i` of a source block: its element encoded, or 0 where it has none (R60). -/
def encLane (vs : List Int) (i : Nat) : Byte :=
  match vs[i]? with
  | some v => encElem v
  | none => 0#8

/-- The single request `PACKL` expands to (R68); `rec_in`, which the line does not name, is 0 (R66). -/
def packlRequest (vs : List Int) : Request :=
  ⟨encode (.pack (encLen vs.length)), coeffBusOf (encLane vs), 0#160⟩

/-- The request for UNPACK of a record; the inputs it does not name are 0 (R66). -/
def unpackRequest (r : RecBus) : Request := ⟨encode (.unpack 0#8), 0#256, r⟩

/-- The source's packed record: `low_nibbles` and `high_bits` (R13, R31). -/
structure PackedRecord where
  lowNibbles : Vector Byte 16
  highBits   : HighBits
  deriving DecidableEq, Repr

/-- `rec_in` of a source record (R61). -/
def encRecord (p : PackedRecord) : RecBus :=
  recordOf (fun j => p.lowNibbles[j]?.getD 0#8) p.highBits

/-- `rec_in` of a record held as 20 bytes (R61). -/
def encRecordBytes (b : Vector Byte 20) : RecBus := recordOfBytes fun k => b[k]?.getD 0#8

/-- The 20 bytes of a record on the bus (R62). -/
def decRecordBytes (r : RecBus) : Vector Byte 20 := Vector.ofFn fun k => recByte r k

/-- The source record on the bus (R62). -/
def decRecord (r : RecBus) : PackedRecord := ⟨Vector.ofFn fun j => recByte r j, recHighBits r⟩

/-- The source's `result[j]`, the number in lane `j` of `coeff_out` (R62). -/
def decBlock (c : CoeffBus) : List Int := (List.range 32).map fun j => ((lane c j).toNat : Int)

/-- The source's `pack(block)`, done by the block: a record, or one of the two error kinds (R93, R94). -/
def sourcePack (vs : List Int) : Except Status PackedRecord :=
  match (eval (packlRequest vs)).status with
  | .ok => .ok (decRecord (eval (packlRequest vs)).recOut)
  | e => .error e

/-- The source's `unpack(record)`, done by the block: total, with no error (R79). -/
def sourceUnpack (p : PackedRecord) : List Int :=
  decBlock (eval (unpackRequest (encRecord p))).coeffOut

end Sys2Proof.Machine
end

