-- ==== Sys2Proof/Machine/Assembler.lean ====
section
/-! DEFINITION. The assembler syntax (30_encoding.md R66 to R68): from a line's text to a line, from a
line to its request, and the spec's way of writing a request's encoding and a response. Text is a list of
characters. Log entry 12 says what R66 leaves open about spacing and spelling. -/

namespace Sys2Proof.Machine

/-- The bytes of a list of numbers, 0 past its end. -/
def byteAt (l : List Nat) (i : Nat) : Byte := BitVec.ofNat 8 (l.getD i 0)

/-- The request of a well-formed line; inputs the line does not name are 0 (R66, R67, R68). -/
def assemble (l : Line) : Option Request :=
  if l.wellFormed then
    match l with
    | .pack len lanes => some ⟨encode (.pack (BitVec.ofNat 8 len)), coeffBusOf (byteAt lanes), 0#160⟩
    | .unpack bytes => some ⟨encode (.unpack 0#8), 0#256, recordOfBytes (byteAt bytes)⟩
    | .packl vs => some (packlRequest vs)
  else none

/-! ### Reading a line -/

/-- The pieces of a line's text. -/
inductive Token where
  | word (w : List Char)
  | comma
  | minus
  | lbrace
  | rbrace
  | lbracket
  | rbracket
  | other (c : Char)
  deriving DecidableEq, Repr

/-- The token of a character that belongs to no word; none for white space. -/
def tokenOfChar (c : Char) : List Token :=
  if c.isWhitespace then []
  else if c.toNat = 0x2C then [.comma]
  else if c.toNat = 0x2D then [.minus]
  else if c.toNat = 0x7B then [.lbrace]
  else if c.toNat = 0x7D then [.rbrace]
  else if c.toNat = 0x5B then [.lbracket]
  else if c.toNat = 0x5D then [.rbracket]
  else [.other c]

/-- The word gathered so far, in reverse, as a token. -/
def flushWord : List Char → List Token
  | [] => []
  | w => [.word w.reverse]

/-- Cut a text into tokens; a word is a run of letters and digits. -/
def tokenise : List Char → List Char → List Token
  | [], acc => flushWord acc
  | c :: cs, acc =>
    if c.isAlphanum then tokenise cs (c :: acc)
    else flushWord acc ++ tokenOfChar c ++ tokenise cs []

/-- A digit's value in a base. -/
def digitValue (base : Nat) (c : Char) : Option Nat :=
  let n := c.toNat
  let v := if 48 ≤ n ∧ n ≤ 57 then n - 48
    else if 65 ≤ n ∧ n ≤ 70 then n - 55
    else if 97 ≤ n ∧ n ≤ 102 then n - 87
    else base
  if v < base then some v else none

/-- The number some digits stand for in a base, most significant first. -/
def digitsValue (base : Nat) : List Char → Nat → Option Nat
  | [], acc => some acc
  | c :: cs, acc => (digitValue base c).bind fun v => digitsValue base cs (acc * base + v)

/-- A decimal number (R66). DESIGN CHOICE: leading zeros are allowed (log entry 12). -/
def decimal : List Char → Option Nat
  | [] => none
  | cs => digitsValue 10 cs 0

/-- A decimal number, "or hexadecimal with `0x`" (R66). -/
def number : List Char → Option Nat
  | '0' :: 'x' :: c :: cs => digitsValue 16 (c :: cs) 0
  | cs => decimal cs

/-- "Two hexadecimal digits without `0x`" (R66). -/
def hexByte : List Char → Option Nat
  | [a, b] => digitsValue 16 [a, b] 0
  | _ => none

/-- PACK's lane values: numbers with commas between them, up to the closing brace that ends the line. R66
gives a lane value no sign. DESIGN CHOICE: a minus sign in a PACK line is refused, `-0` too (log entry 12). -/
def parseLanes : List Token → Option (List Nat)
  | [.word w, .rbrace] => (number w).map fun n => [n]
  | .word w :: .comma :: ts => (number w).bind fun n => (parseLanes ts).map (n :: ·)
  | _ => none

/-- PACKL's values: as PACK's lane values, with "negative values written with `-`" (R68). DESIGN CHOICE:
`-0` is 0 and white space may stand after the sign (log entry 12). -/
def parseItems : List Token → Option (List Int)
  | [.word w, .rbrace] => (number w).map fun n => [(n : Int)]
  | [.minus, .word w, .rbrace] => (number w).map fun n => [-(n : Int)]
  | .word w :: .comma :: ts => (number w).bind fun n => (parseItems ts).map ((n : Int) :: ·)
  | .minus :: .word w :: .comma :: ts =>
    (number w).bind fun n => (parseItems ts).map (-(n : Int) :: ·)
  | _ => none

/-- The hexadecimal bytes up to the closing bracket that ends the line (R66). -/
def parseBytes : List Token → Option (List Nat)
  | [.rbracket] => some []
  | .word w :: ts => (hexByte w).bind fun n => (parseBytes ts).map (n :: ·)
  | _ => none

/-- A line from its tokens (R66, R68). -/
def parseTokens : List Token → Option Line
  | .word ['P', 'A', 'C', 'K'] :: .word len :: .comma :: .lbrace :: ts =>
    (decimal len).bind fun n => (parseLanes ts).map (Line.pack n)
  | .word ['U', 'N', 'P', 'A', 'C', 'K'] :: .lbracket :: ts => (parseBytes ts).map Line.unpack
  | [.word ['P', 'A', 'C', 'K', 'L'], .lbrace, .rbrace] => some (.packl [])
  | .word ['P', 'A', 'C', 'K', 'L'] :: .lbrace :: ts => (parseItems ts).map Line.packl
  | _ => none

/-- The line a text spells. -/
def parseLine (text : List Char) : Option Line := parseTokens (tokenise text [])

/-- The request a text spells, if it spells a well-formed line. -/
def assembleText (text : List Char) : Option Request := (parseLine text).bind assemble

/-! ### Writing requests and responses -/

/-- Two hexadecimal digits (R66, R67). DESIGN CHOICE: in capitals (log entry 12). -/
def showByte (b : Byte) : List Char :=
  [Nat.digitChar (b.toNat / 16), Nat.digitChar (b.toNat % 16)].map Char.toUpper

/-- Bytes in order (R66, R67). DESIGN CHOICE: one space between two bytes (log entry 12). -/
def showBytes (bs : List Byte) : List Char := [' '].intercalate (bs.map showByte)

/-- The 32 lanes of a bus, lane 0 first. -/
def lanesOf (c : CoeffBus) : List Byte := (List.range 32).map (lane c)

/-- The 20 bytes of a record, byte 0 first. -/
def bytesOf (r : RecBus) : List Byte := (List.range 20).map (recByte r)

/-- `cmd=0x<3 hex digits>` (R67). -/
def showCmd (c : Cmd) : List Char :=
  ['c', 'm', 'd', '=', '0', 'x', Nat.digitChar (c.toNat / 256)] ++ showByte (c.extractLsb' 0 8)

/-- The encoding of a request: the command word, then the bytes of the operand it reads (R67). DESIGN
CHOICE: one space stands between them and the operand's port is not named (log entry 12). -/
def showRequest (q : Request) : List Char :=
  showCmd q.cmd ++ [' '] ++
    if cmdOp q.cmd then showBytes (bytesOf q.recIn) else showBytes (lanesOf q.coeffIn)

/-- The name of a status (R66, R94). -/
def Status.name : Status → List Char
  | .ok => ['O', 'K']
  | .invalidLength => ['I', 'n', 'v', 'a', 'l', 'i', 'd', 'L', 'e', 'n', 'g', 't', 'h']
  | .outOfRange => ['O', 'u', 't', 'O', 'f', 'R', 'a', 'n', 'g', 'e']

/-- `status=<name>` followed by, for the operation of the request, `rec_out` as 20 bytes or `coeff_out` as
32 decimal lane values (R66). DESIGN CHOICE: one space stands between the two parts, the output's port is
not named, the output after an error of PACK is `rec_out`, a comma and a space stand between two lane
values, and no braces stand around the 32 (log entry 12). -/
def showResponse (op : Bool) (r : Response) : List Char :=
  ['s', 't', 'a', 't', 'u', 's', '='] ++ r.status.name ++ [' '] ++
    if op then [',', ' '].intercalate ((lanesOf r.coeffOut).map fun b => Nat.toDigits 10 b.toNat)
    else showBytes (bytesOf r.recOut)

end Sys2Proof.Machine
end

