-- ==== Sys2Proof/Machine/HostProgram.lean ====
section
/-! DEFINITION. Host programs and runs (10_state.md R29). A program whose requests are fixed stands in
`State.pending`; one that builds requests from responses is fed by the host from outside. -/

namespace Sys2Proof.Machine

/-- Present the first request of a program and keep the rest as the script (R29). -/
def State.load (s : State) (first : Request) (rest : List Request) : State :=
  { s with pending := rest }.present first

/-- The observation of a run in which each request is built from the responses so far: `Eval` of each,
in order (R29). -/
def hostRun : List (List Response → Request) → List Response → List Response
  | [], seen => seen
  | build :: more, seen => hostRun more (seen ++ [eval (build seen)])

/-- The same program on the machine: build a request from what was sampled, present it, step (R29,
R119). -/
def machineRun : List (List Response → Request) → State → Host.Outcome State Fault Refusal
  | [], s => .next s
  | build :: more, s =>
    match step (s.present (build s.sampled)) with
    | .next t => machineRun more t
    | .fault f => .fault f
    | .refused r => .refused r

end Sys2Proof.Machine
end

