-- ==== Sys2Proof/Safety.lean ====
section
/-! DEFINITION. What counts as a safe state, in the terms the statements use: settled ports
carry the response of the held request, and everything the host has sampled is a response of the block. -/

namespace Sys2Proof.Machine

/-- A response the block can give: `Eval` of some request (R46). -/
def Response.Possible (r : Response) : Prop := ∃ q : Request, r = eval q

/-- Once settled, the output ports carry `Eval` of the request on the input ports (R115). -/
def State.PortsAgree (s : State) : Prop :=
  s.settled = true →
    s.status = (eval s.request).status.code ∧ s.recOut = (eval s.request).recOut ∧
      s.coeffOut = (eval s.request).coeffOut

/-- The invariant: the settled ports agree with the request, and every sampled value is a response of the
block, never an unsettled draw (R115, R116, R117). -/
def State.Inv (s : State) : Prop := s.PortsAgree ∧ ∀ r ∈ s.sampled, r.Possible

end Sys2Proof.Machine
end

