-- ==== Sys2Proof/Certificates/Slice0/Obligations.lean ====
section
/-! DEFINITION. What is claimed of the model, one Prop an obligation. Ports are read through the notation
of 00_scope.md R10 (`lane`, `recByte`) or bit by bit. The response the host has sampled is the last entry
of `sampled`. -/

open Sys2Proof Sys2Proof.Machine

/-! ### Encoding -/

/-- `cmd[8]` selects the operation and both values are defined (R53); `len` is `cmd[7:0]` (R51). That UNPACK,
which ignores `cmd[7:0]`, keeps those bits in its constructor is the model's choice (log entry 17). -/
def Obligations.BitEightSelectsTheOperation : Prop :=
  ∀ c : Cmd, (c.getLsbD 8 = false → decodeCmd c = .pack (c.extractLsb' 0 8)) ∧
    (c.getLsbD 8 = true → decodeCmd c = .unpack (c.extractLsb' 0 8))

/-- Command words the spec writes out (95_test_vectors.md sections 1 to 3), as bytes and as table words.
The byte layout and the `len` bits UNPACK keeps are the model's choice (log entries 7 and 17). -/
def Obligations.SpecCommandWordsDecode : Prop :=
  decode [0x20#8, 0x00#8] = .ok (.pack 32#8, []) ∧ decode [0x1F#8, 0x00#8] = .ok (.pack 31#8, []) ∧
    decode [0x00#8, 0x01#8] = .ok (.unpack 0#8, []) ∧
    decode [0xFF#8, 0x01#8] = .ok (.unpack 255#8, []) ∧
    decodeTableWord 9 0x0FF = some (.pack 255#8) ∧ decodeTableWord 16 0x100 = some (.unpack 0#8)

/-- Decoding and encoding agree in both directions, for command words and for bytes: every well-formed
instruction comes back, and nothing else decodes to it. The byte layout is the model's choice (log entry
7); so is that each UNPACK word is the encoding of an instruction of its own, since by R64 all 256 words
`1xxxxxxxx` are UNPACK and the constructor keeps the ignored bits (log entry 17). -/
def Obligations.DecodeEncodeAgree : Prop :=
  (∀ i : Instr, i.wellFormed = true → decodeCmd (encode i) = i) ∧
    (∀ c : Cmd, encode (decodeCmd c) = c) ∧
    (∀ (i : Instr) (rest : List Byte), i.wellFormed = true →
      decode (encodeBytes i ++ rest) = .ok (i, rest)) ∧
    ∀ (bs : List Byte) (i : Instr) (rest : List Byte), decode bs = .ok (i, rest) →
      bs = encodeBytes i ++ rest

/-- Bytes are refused exactly when there are fewer than two, or a bit above bit 8 is set (the model's
choice, log entry 7). -/
def Obligations.OnlyNonCommandBytesAreRefused : Prop :=
  (∀ bs : List Byte, decode bs = .error .truncated ↔ bs.length < 2) ∧
    ∀ (lo hi : Byte) (rest : List Byte),
      decode (lo :: hi :: rest) = .error .notACommandWord ↔ 2#8 ≤ hi

/-- A word placed for the next step is the operation the decoder reads from it, with the data ports, the
script and the observation as they were. That placing a word is the host driving the command port and
leaving those four is the model's choice (log entry 9), as are the table word's byte layout (log entry 7)
and the `len` bits UNPACK keeps (log entry 17); R17 and R49 give the fetch alone. What becomes of the
outputs, which a changed word unsettles, is PresentingUnsettles. -/
def Obligations.PlacedWordIsFetched : Prop :=
  ∀ (s : State) (nbits w : Nat) (i : Instr), decodeTableWord nbits w = some i →
    fetch (s.withFetchWord nbits w) = i ∧ (s.withFetchWord nbits w).coeffIn = s.coeffIn ∧
      (s.withFetchWord nbits w).recIn = s.recIn ∧ (s.withFetchWord nbits w).pending = s.pending ∧
      (s.withFetchWord nbits w).sampled = s.sampled

/-! ### Dispatch and the step -/

/-- R24: `Eval` is PACK of the command word and `coeff_in` when `cmd[8]` is 0 and UNPACK of `rec_in` when
it is 1, and executing the operation on the command port drives it. -/
def Obligations.ExecutionDrivesEval : Prop :=
  (∀ q : Request, eval q =
    if q.cmd.getLsbD 8 = false then pack (q.cmd.extractLsb' 0 8) q.coeffIn else unpack q.recIn) ∧
    ∀ s : State, ∃ t, exec (decodeCmd s.cmd) s = .next t ∧
      t.status = (eval ⟨s.cmd, s.coeffIn, s.recIn⟩).status.code ∧
      t.recOut = (eval ⟨s.cmd, s.coeffIn, s.recIn⟩).recOut ∧
      t.coeffOut = (eval ⟨s.cmd, s.coeffIn, s.recIn⟩).coeffOut

/-- A step runs the decoded operation and adds the host's turn: it samples the response that stands on
the output ports and presents the next request of its script, if there is one. The host's turn is the
model's choice (log entry 5), and so is that with no script left the ports keep the last request, which R29
leaves open (log entry 13). -/
def Obligations.StepRunsTheDecodedOperation : Prop :=
  ∀ (s : State) (i : Instr), decodeCmd s.cmd = i → ∃ (t : State) (st : Status),
    exec i s = .next t ∧ t.status = st.code ∧
      (t.pending = [] →
        step s = .next { t with sampled := t.sampled ++ [⟨st, t.recOut, t.coeffOut⟩] }) ∧
      ∀ (q : Request) (rest : List Request), t.pending = q :: rest →
        step s = .next (State.present { t with
          pending := rest, sampled := t.sampled ++ [⟨st, t.recOut, t.coeffOut⟩] } q)

/-- The block cannot stall or refuse (R26) and every request has a defined response (R63): from every
state every number of steps runs. That each step adds exactly one response to the observation, also once
the script is used up, is the model's choice: the host's turn in a step is log entry 5, its holding and
sampling its last request again is log entry 13. -/
def Obligations.EveryRunContinues : Prop :=
  ∀ (s : State) (n : Nat), ∃ t : State, Host.Core.run Sys2Proof.core n s = .next t ∧
    t.sampled.length = s.sampled.length + n

/-- What any evaluation leaves unchanged, for PACK and UNPACK alike: the input ports, the host's script
and observation, and the draw counter. Only output ports are written (R43), and they are settled. That a
State has these fields is the model's choice (log entry 1). -/
def Obligations.EvaluationFrame : Prop :=
  ∀ (i : Instr) (s t : State), exec i s = .next t →
    t.cmd = s.cmd ∧ t.coeffIn = s.coeffIn ∧ t.recIn = s.recIn ∧ t.pending = s.pending ∧
      t.sampled = s.sampled ∧ t.draws = s.draws ∧ t.settled = true

/-! ### PACK -/

/-- R70, R71: PACK of a valid block completes with status OK, record byte `j` is
`(c[j+16][3:0], c[j][3:0])`, also as read on the bus, and `high_bits[i]` is `c[i][4]`. -/
def Obligations.PackOfValidBlock : Prop :=
  ∀ s : State, (∀ i < 32, lane s.coeffIn i ≤ 31#8) → ∃ t, exec (.pack 32#8) s = .next t ∧
    t.status = 0#2 ∧ t.coeffOut = 0#256 ∧
    (∀ j < 16, recByte t.recOut j =
      (lane s.coeffIn (j + 16)).extractLsb' 0 4 ++ (lane s.coeffIn j).extractLsb' 0 4) ∧
    (∀ i < 16, t.recOut.extractLsb' (8 * i) 4 = (lane s.coeffIn i).extractLsb' 0 4) ∧
    (∀ i < 32, 16 ≤ i →
      t.recOut.extractLsb' (8 * (i - 16) + 4) 4 = (lane s.coeffIn i).extractLsb' 0 4) ∧
    ∀ i < 32, t.recOut.getLsbD (128 + i) = (lane s.coeffIn i).getLsbD 4 ∧
      (recHighBits t.recOut).getLsbD i = (lane s.coeffIn i).getLsbD 4

/-- R95: InvalidLength is status 1, raised by PACK when `len != 32` whatever the lanes hold, with nothing
recorded besides the code. -/
def Obligations.PackOfWrongLength : Prop :=
  ∀ (s : State) (len : Len), len ≠ 32#8 → exec (.pack len) s =
    .next { s with status := 1#2, recOut := 0#160, coeffOut := 0#256, settled := true }

/-- R96: OutOfRange is status 2, raised by PACK when `len == 32` and at least one lane exceeds 31, with
nothing recorded besides the code: the next state does not depend on which lane it was. -/
def Obligations.PackOfOutOfRangeLane : Prop :=
  ∀ (s : State) (i : Nat), i < 32 → 31#8 < lane s.coeffIn i → exec (.pack 32#8) s =
    .next { s with status := 2#2, recOut := 0#160, coeffOut := 0#256, settled := true }

/-- R97: exactly one status per evaluation: OK for UNPACK; for PACK the length error first, whatever
the lanes hold, then the range error, then OK. -/
def Obligations.StatusPriority : Prop :=
  ∀ s : State, ∃ t, exec (decodeCmd s.cmd) s = .next t ∧
    (s.cmd.getLsbD 8 = true → t.status = 0#2) ∧
    (s.cmd.getLsbD 8 = false → s.cmd.extractLsb' 0 8 ≠ 32#8 → t.status = 1#2) ∧
    (s.cmd.getLsbD 8 = false → s.cmd.extractLsb' 0 8 = 32#8 →
      (∃ i < 32, 31#8 < lane s.coeffIn i) → t.status = 2#2) ∧
    (s.cmd.getLsbD 8 = false → s.cmd.extractLsb' 0 8 = 32#8 →
      (∀ i < 32, lane s.coeffIn i ≤ 31#8) → t.status = 0#2)

/-- R86: the length check passes for 32 and fails for every other value, read as an unsigned number. -/
def Obligations.LengthCheck : Prop :=
  ∀ (s : State) (len : Len), ∃ t, exec (.pack len) s = .next t ∧ (t.status = 1#2 ↔ len.toNat ≠ 32)

/-- The range check (R87), its form as one mask over the OR of the lanes, and its agreement with the
source's verdict on every source block of 32 elements. -/
def Obligations.RangeCheckForms : Prop :=
  (∀ c : CoeffBus, rangeOk c = true ↔ ∀ i < 32, lane c i ≤ 31#8) ∧
    (∀ c : CoeffBus, rangeOk c = true ↔
      ((List.range 32).map (lane c)).foldr (· ||| ·) 0#8 &&& 0xE0#8 = 0#8) ∧
    (∀ c : CoeffBus, rangeOkByMask c = rangeOk c) ∧
    ∀ vs : List Int, vs.length = 32 →
      (rangeOk (packlRequest vs).coeffIn = true ↔ ∀ v ∈ vs, 0 ≤ v ∧ v ≤ 31)

/-- R92: lengths 31 and 33 fail with InvalidLength, and a 32 at any position fails with OutOfRange. -/
def Obligations.ValidationTestList : Prop :=
  (∀ s : State, ∃ t, exec (.pack 31#8) s = .next t ∧ t.status = 1#2) ∧
    (∀ s : State, ∃ t, exec (.pack 33#8) s = .next t ∧ t.status = 1#2) ∧
    ∀ (s : State) (p : Nat), p < 32 → lane s.coeffIn p = 32#8 →
      ∃ t, exec (.pack 32#8) s = .next t ∧ t.status = 2#2

/-- R98: on either error both data outputs are 0; and `rec_out` 0 with status OK is the record of the
all-zero block, told apart from an error by the status alone. -/
def Obligations.NoPartialRecord : Prop :=
  (∀ (i : Instr) (s t : State), exec i s = .next t → t.status ≠ 0#2 →
    t.recOut = 0#160 ∧ t.coeffOut = 0#256) ∧
    ∀ s : State, s.coeffIn = 0#256 → ∃ t, exec (.pack 32#8) s = .next t ∧ t.status = 0#2 ∧
      t.recOut = 0#160

/-- R74: PACK drives `coeff_out` to 0 on success and on failure, and `rec_out` to 0 on failure. -/
def Obligations.PackUnusedOutputs : Prop :=
  ∀ (s : State) (len : Len), ∃ t, exec (.pack len) s = .next t ∧ t.coeffOut = 0#256 ∧
    (t.status ≠ 0#2 → t.recOut = 0#160)

/-- R75: for valid blocks that differ only in bits 3 to 0 of coefficient `i`, the records differ exactly
in the matching bits of its nibble of byte `i mod 16`; for blocks that differ only in bit 4 of
coefficient `i`, exactly in `rec_out[128+i]`. -/
def Obligations.PackBitIsolation : Prop :=
  ∀ (s u : State) (i : Nat), i < 32 →
    (∀ k < 32, lane s.coeffIn k ≤ 31#8) → (∀ k < 32, lane u.coeffIn k ≤ 31#8) →
    (∀ k < 32, k ≠ i → lane s.coeffIn k = lane u.coeffIn k) →
    ∃ t v, exec (.pack 32#8) s = .next t ∧ exec (.pack 32#8) u = .next v ∧
      ((lane s.coeffIn i).getLsbD 4 = (lane u.coeffIn i).getLsbD 4 →
        ∀ n < 160, t.recOut.getLsbD n ≠ v.recOut.getLsbD n ↔
          ∃ b < 4, n = 8 * (i % 16) + (if i < 16 then 0 else 4) + b ∧
            (lane s.coeffIn i).getLsbD b ≠ (lane u.coeffIn i).getLsbD b) ∧
      ((lane s.coeffIn i).extractLsb' 0 4 = (lane u.coeffIn i).extractLsb' 0 4 →
        ∀ n < 160, t.recOut.getLsbD n ≠ v.recOut.getLsbD n ↔
          n = 128 + i ∧ (lane s.coeffIn i).getLsbD 4 ≠ (lane u.coeffIn i).getLsbD 4)

/-- R72: the source's two passes give the record of PACK in whatever order their 32 pieces run, so either
pass may come first and they may be fused. -/
def Obligations.PassesInAnyOrder : Prop :=
  ∀ (s : State) (order : List Nat), (∀ i < 32, lane s.coeffIn i ≤ 31#8) →
    order.Perm (List.range 32) →
    ∃ t, exec (.pack 32#8) s = .next t ∧ t.recOut = packInOrder s.coeffIn order

/-- R36: bytes 16 to 19 of the record PACK gives are `high_bits`, little-endian, on bus bits 159 to
128. -/
def Obligations.HighBitsAreLittleEndian : Prop :=
  (∀ r : RecBus, ∀ m < 4, recByte r (16 + m) = (recHighBits r).extractLsb' (8 * m) 8) ∧
    (∀ r : RecBus, ∀ i < 32, (recHighBits r).getLsbD i = r.getLsbD (128 + i)) ∧
    ∀ s : State, (∀ i < 32, lane s.coeffIn i ≤ 31#8) → ∃ t, exec (.pack 32#8) s = .next t ∧
      ∀ m < 4, ∀ b < 8,
        (recByte t.recOut (16 + m)).getLsbD b = (lane s.coeffIn (8 * m + b)).getLsbD 4

/-- The views of R39, which the spec infers: read little-endian, bytes 16 to 19 are `high_bits` and bytes `4m..4m+3` are four low-nibble
bytes; read big-endian, bytes 16 to 19 are another number. -/
def Obligations.MixedWidthViews : Prop :=
  (∀ r : RecBus, recWordLE r 4 = recHighBits r) ∧
    (∀ r : RecBus, ∀ m < 4, ∀ k < 4, (recWordLE r m).extractLsb' (8 * k) 8 = recByte r (4 * m + k)) ∧
    ∃ r : RecBus, recWordBE r 4 ≠ recHighBits r

/-- The corner cases of R76 with one nonzero lane: 16 sets only `high_bits[p]`, 15 only the nibble of
coefficient `p`, and 31 both. -/
def Obligations.PackSingleLaneCorners : Prop :=
  ∀ (s : State) (p : Nat), p < 32 → (∀ k < 32, k ≠ p → lane s.coeffIn k = 0#8) →
    (lane s.coeffIn p = 16#8 → ∃ t, exec (.pack 32#8) s = .next t ∧ t.status = 0#2 ∧
      t.recOut = 1#160 <<< (128 + p)) ∧
    (lane s.coeffIn p = 15#8 → ∃ t, exec (.pack 32#8) s = .next t ∧ t.status = 0#2 ∧
      t.recOut = 15#160 <<< (8 * (p % 16) + if p < 16 then 0 else 4)) ∧
    (lane s.coeffIn p = 31#8 → ∃ t, exec (.pack 32#8) s = .next t ∧ t.status = 0#2 ∧
      t.recOut = 15#160 <<< (8 * (p % 16) + if p < 16 then 0 else 4) ||| 1#160 <<< (128 + p))

/-! ### UNPACK -/

/-- R78, R80: UNPACK completes with status OK on every record; lane `j` is the nibble of byte
`j mod 16`, low for `j < 16` and high otherwise, OR'd with `high_bits[j] << 4`, which is the 5-bit value
`(h, nib)`; `rec_out` is 0. -/
def Obligations.UnpackOfAnyRecord : Prop :=
  ∀ (s : State) (x : Len), ∃ t, exec (.unpack x) s = .next t ∧ t.status = 0#2 ∧ t.recOut = 0#160 ∧
    ∀ j < 32, lane t.coeffOut j =
        (if j < 16 then recByte s.recIn (j % 16) &&& 0x0F#8 else recByte s.recIn (j % 16) >>> 4) |||
          ((s.recIn.extractLsb' (128 + j) 1).setWidth 8 <<< 4) ∧
      lane t.coeffOut j = (s.recIn.extractLsb' (128 + j) 1 ++
        s.recIn.extractLsb' (8 * (j % 16) + if j < 16 then 0 else 4) 4 : BitVec (1 + 4)).setWidth 8

/-- R81, which the spec infers: every lane an UNPACK drives is at most 31, with bits 7 to 5 equal to 0. -/
def Obligations.UnpackLanesInRange : Prop :=
  ∀ (s : State) (x : Len), ∃ t, exec (.unpack x) s = .next t ∧
    ∀ j < 32, lane t.coeffOut j ≤ 31#8 ∧ (lane t.coeffOut j).extractLsb' 5 3 = 0#3

/-- Each record bit reaches one bit of one lane: UNPACK of a record with the single bit `n` set (the rows
of R84, at every position). -/
def Obligations.UnpackSingleBit : Prop :=
  ∀ (s : State) (x : Len) (n : Nat), n < 160 → s.recIn = 1#160 <<< n →
    ∃ t, exec (.unpack x) s = .next t ∧ t.coeffOut = 1#256 <<<
      (if 128 ≤ n then 8 * (n - 128) + 4
       else if n % 8 < 4 then 8 * (n / 8) + n % 8
       else 8 * (n / 8 + 16) + (n % 8 - 4))

/-- R65: PACK does not read `rec_in`; UNPACK reads neither `cmd[7:0]` nor `coeff_in`, and with any `len`
it is an ordinary UNPACK. -/
def Obligations.IgnoredInputs : Prop :=
  (∀ (s u : State) (len : Len), s.coeffIn = u.coeffIn → ∃ t v, exec (.pack len) s = .next t ∧
    exec (.pack len) u = .next v ∧ t.status = v.status ∧ t.recOut = v.recOut ∧
    t.coeffOut = v.coeffOut) ∧
    ∀ (s u : State) (x y : Len), s.recIn = u.recIn → ∃ t v, exec (.unpack x) s = .next t ∧
      exec (.unpack y) u = .next v ∧ t.status = v.status ∧ t.recOut = v.recOut ∧
      t.coeffOut = v.coeffOut

/-! ### Round trips -/

/-- R82: PACK of a valid request gives OK, and UNPACK of the resulting record gives back the block. -/
def Obligations.RoundTripBlockFirst : Prop :=
  ∀ s : State, s.cmd.getLsbD 8 = false → s.cmd.extractLsb' 0 8 = 32#8 →
    (∀ i < 32, lane s.coeffIn i ≤ 31#8) →
    ∃ t, exec (decodeCmd s.cmd) s = .next t ∧ t.status = 0#2 ∧
      ∀ u : State, u.cmd.getLsbD 8 = true → u.recIn = t.recOut →
        ∃ v, exec (decodeCmd u.cmd) u = .next v ∧ v.coeffOut = s.coeffIn

/-- R83: UNPACK of any record gives a block whose PACK is OK and is that record. -/
def Obligations.RoundTripRecordFirst : Prop :=
  ∀ s : State, s.cmd.getLsbD 8 = true → ∃ t, exec (decodeCmd s.cmd) s = .next t ∧
    ∀ u : State, u.cmd = 0x020#9 → u.coeffIn = t.coeffOut →
      ∃ v, exec (decodeCmd u.cmd) u = .next v ∧ v.status = 0#2 ∧ v.recOut = s.recIn

/-- Every 160-bit value is the record of exactly one valid block (R33). -/
def Obligations.EveryRecordHasOneBlock : Prop :=
  ∀ r : RecBus, ∃! c : CoeffBus, (∀ i < 32, lane c i ≤ 31#8) ∧
    ∀ s : State, s.coeffIn = c → ∃ t, exec (.pack 32#8) s = .next t ∧ t.status = 0#2 ∧ t.recOut = r

/-- The source's `unpack(pack(block)) == block` and `pack(unpack(record)) == record`, through the host's
encodings (R59 to R62): a block packs exactly when it has 32 elements, each 0 to 31. -/
def Obligations.SourceRoundTrips : Prop :=
  (∀ vs : List Int, vs.length = 32 → (∀ v ∈ vs, 0 ≤ v ∧ v ≤ 31) →
    ∃ p, sourcePack vs = .ok p ∧ sourceUnpack p = vs) ∧
    (∀ (vs : List Int) (p : PackedRecord), sourcePack vs = .ok p →
      vs.length = 32 ∧ (∀ v ∈ vs, 0 ≤ v ∧ v ≤ 31) ∧ sourceUnpack p = vs) ∧
    ∀ p : PackedRecord, sourcePack (sourceUnpack p) = .ok p

/-! ### The host's encodings -/

/-- R59: `len = L` up to 255 and 255 above, and `len == 32` exactly when `L == 32`. -/
def Obligations.HostLengthEncoding : Prop :=
  ∀ n : Nat, (n ≤ 255 → (encLen n).toNat = n) ∧ (255 < n → (encLen n).toNat = 255) ∧
    (encLen n = 32#8 ↔ n = 32)

/-- R60: each presented element is itself or 255, missing lanes are 0, elements from 32 on are not
presented, and an element is in range on the port exactly when it is in range at the source. -/
def Obligations.HostElementEncoding : Prop :=
  (∀ v : Int, (0 ≤ v ∧ v ≤ 255 → ((encElem v).toNat : Int) = v) ∧
    (¬(0 ≤ v ∧ v ≤ 255) → (encElem v).toNat = 255) ∧ (encElem v ≤ 31#8 ↔ 0 ≤ v ∧ v ≤ 31)) ∧
    (∀ (vs : List Int) (i : Nat) (h : i < vs.length), i < 32 →
      lane (packlRequest vs).coeffIn i = encElem vs[i]) ∧
    (∀ (vs : List Int) (i : Nat), vs.length ≤ i → i < 32 →
      lane (packlRequest vs).coeffIn i = 0#8) ∧
    ∀ vs ws : List Int, vs.take 32 = ws.take 32 →
      (packlRequest vs).coeffIn = (packlRequest ws).coeffIn

/-- PACKL (R68) of any source block: the sampled status is the source's verdict on the block itself
(R93), not only on its encoding. That a step samples the response is the model's choice (log entry 5). -/
def Obligations.PacklReportsTheSourceVerdict : Prop :=
  ∀ (s : State) (vs : List Int), s.pending = [] → ∃ t r,
    step (s.present (packlRequest vs)) = .next t ∧ t.sampled = s.sampled ++ [r] ∧ r.status =
      if vs.length ≠ 32 then .invalidLength
      else if ∃ v ∈ vs, ¬(0 ≤ v ∧ v ≤ 31) then .outOfRange
      else .ok

/-- R61, which the spec infers: a record given as low-nibble bytes and high-bit plane and the same record given as 20 bytes go
onto the bus as the same value, byte 0 least significant. -/
def Obligations.RecordEncodingsAgree : Prop :=
  ∀ b : Vector Byte 20,
    encRecord ⟨Vector.ofFn fun j : Fin 16 => b[j.val]'(by omega), b[19] ++ b[18] ++ b[17] ++ b[16]⟩ =
        encRecordBytes b ∧
      ∀ k, (h : k < 20) → (encRecordBytes b).extractLsb' (8 * k) 8 = b[k]

/-- Assembler lines (R66, R68): the fields a line names stand on the ports, the inputs it does not name are
0, and a PACK or UNPACK line is a request exactly when its counts and ranges are those of R66. A PACKL line
always is one: PACK of the host's encoding of its length and values. -/
def Obligations.AssembledLineOnThePorts : Prop :=
  (∀ (len : Nat) (lanes : List Nat) (q : Request), assemble (.pack len lanes) = some q →
    q.cmd.toNat = len ∧ lanes.length = 32 ∧ q.recIn = 0#160 ∧
      ∀ i, (h : i < lanes.length) → (lane q.coeffIn i).toNat = lanes[i]) ∧
    (∀ (bytes : List Nat) (q : Request), assemble (.unpack bytes) = some q →
      q.cmd = 0x100#9 ∧ bytes.length = 20 ∧ q.coeffIn = 0#256 ∧
        ∀ k, (h : k < bytes.length) → (recByte q.recIn k).toNat = bytes[k]) ∧
    (∀ vs : List Int, ∃ q, assemble (.packl vs) = some q ∧ q.cmd.getLsbD 8 = false ∧
      (q.cmd.extractLsb' 0 8).toNat = min vs.length 255 ∧ q.recIn = 0#160 ∧
      (∀ i, (h : i < vs.length) → i < 32 → lane q.coeffIn i = encElem vs[i]) ∧
      ∀ i < 32, vs.length ≤ i → lane q.coeffIn i = 0#8) ∧
    (∀ (len : Nat) (lanes : List Nat), (assemble (.pack len lanes)).isSome = true ↔
      len ≤ 255 ∧ lanes.length = 32 ∧ ∀ n ∈ lanes, n ≤ 255) ∧
    (∀ bytes : List Nat, (assemble (.unpack bytes)).isSome = true ↔
      bytes.length = 20 ∧ ∀ n ∈ bytes, n ≤ 255) ∧
    ∀ l : Line, l.wellFormed = (assemble l).isSome

/-! ### Runs, timing, reset -/

/-- R29 for a scripted program: one step a request observes `Eval` of each request, in order. That the
script stands in the state and a step takes the next request from it is the model's choice (log entry
5). -/
def Obligations.ScriptedRunObservesEval : Prop :=
  ∀ (s : State) (q : Request) (rest : List Request), ∃ t,
    Host.Core.run Sys2Proof.core (rest.length + 1) (s.load q rest) = .next t ∧
      t.pending = [] ∧ t.sampled = s.sampled ++ (q :: rest).map eval

/-- R29 for a program that builds each request from the responses before it: the machine observes what
evaluating in order gives. That a step samples one response is the model's choice (log entry 5). -/
def Obligations.BuiltRunObservesEval : Prop :=
  ∀ (s : State) (program : List (List Response → Request)), s.pending = [] → ∃ t,
    machineRun program s = .next t ∧ t.pending = [] ∧ t.sampled = hostRun program s.sampled ∧
      t.sampled.length = s.sampled.length + program.length

/-- R46: the sampled response depends on the held request and on nothing else: not on what the outputs
carried, what was sampled before, what is still to come, or the draws. That a step samples the response
is the model's choice (log entry 5). -/
def Obligations.ResponseIgnoresHistory : Prop :=
  ∀ s u : State, s.cmd = u.cmd → s.coeffIn = u.coeffIn → s.recIn = u.recIn →
    ∃ t v r, step s = .next t ∧ step u = .next v ∧ t.sampled = s.sampled ++ [r] ∧
      v.sampled = u.sampled ++ [r] ∧ r = eval ⟨s.cmd, s.coeffIn, s.recIn⟩

/-- Evaluating the same request again gives the same response and changes nothing else (R43), an error
included (R100). That the host still holds the request after its script, so that a further step evaluates
and samples it again, is the model's choice (log entries 13 and 5). -/
def Obligations.SameRequestSameResponse : Prop :=
  ∀ s : State, s.pending = [] → ∃ t r, step s = .next t ∧ t.sampled = s.sampled ++ [r] ∧
    step t = .next { t with sampled := s.sampled ++ [r, r] }

/-- Driving a changed request puts it on the input ports and leaves the outputs a free draw, unsettled
(R117). The draw counter is the model's choice (log entry 3), and so is that driving the request already
held changes nothing (log entry 4). -/
def Obligations.PresentingUnsettles : Prop :=
  ∀ (s : State) (q : Request),
    (q ≠ ⟨s.cmd, s.coeffIn, s.recIn⟩ → s.present q =
      ⟨q.cmd, q.coeffIn, q.recIn, Config.unsettledStatus s.draws, Config.unsettledRec s.draws,
        Config.unsettledCoeff s.draws, false, s.pending, s.sampled, s.draws + 1⟩) ∧
      (q = ⟨s.cmd, s.coeffIn, s.recIn⟩ → s.present q = s)

/-- R115: held for at least `T_PD`, whatever its value, a request has its response on the output ports,
the one executing it gives, and keeps it there however much longer it is held. -/
def Obligations.HeldRequestSettles : Prop :=
  ∀ (s : State) (time more : Nat), Config.tPd ≤ time →
    exec (decodeCmd s.cmd) s = .next (s.holdFor time) ∧ (s.holdFor time).settled = true ∧
      (s.holdFor time).holdFor more = s.holdFor time

/-- The raw status port as the host reads it (R94): codes 0, 1 and 2 name the three outcomes, code 3 is a
fault, and no execution drives 3. -/
def Obligations.StatusPortReading : Prop :=
  (∀ s : State, s.status = 0#2 → s.sample = .ok ⟨.ok, s.recOut, s.coeffOut⟩) ∧
    (∀ s : State, s.status = 1#2 → s.sample = .ok ⟨.invalidLength, s.recOut, s.coeffOut⟩) ∧
    (∀ s : State, s.status = 2#2 → s.sample = .ok ⟨.outOfRange, s.recOut, s.coeffOut⟩) ∧
    (∀ s : State, s.status = 3#2 → s.sample = .error .statusThree) ∧
    ∀ (i : Instr) (s : State), ∃ t, exec i s = .next t ∧ t.status ≠ 3#2

/-- Settled ports agree with the held request and every sampled value is a response of the block: every
step keeps this, and so does every host action at the ports. The fields it speaks of, the sample in a step
and the counting of a hold are the model's choice (log entries 1, 5 and 15). -/
def Obligations.InvariantIsKept : Prop :=
  (∀ s t : State, s.Inv → step s = .next t → t.Inv) ∧
    (∀ (s : State) (q : Request), s.Inv → (s.present q).Inv) ∧
    (∀ (s : State) (time : Nat), s.Inv → (s.holdFor time).Inv) ∧
    ∀ (s : State) (nbits w : Nat), s.Inv → (s.withFetchWord nbits w).Inv

/-- The invariant holds right after power-up. -/
def Obligations.InvariantAtReset : Prop := State.reset.Inv

/-- After power-up nothing is settled (R113), sampled or pending, and the first request may be presented
at once (R114), whatever the outputs carried. The empty script and the sample in a step are the model's
choice (log entries 11 and 5). -/
def Obligations.PowerUp : Prop :=
  State.reset.settled = false ∧ State.reset.sampled = [] ∧ State.reset.pending = [] ∧
    ∀ q : Request, ∃ t, step (State.reset.present q) = .next t ∧ t.sampled = [eval q]
end

