-- ==== Sys2Proof/Laws/Decode.lean ====
section
/-! SUPPORT. The fields of an encoded instruction, and the byte form of a command word. -/

namespace Sys2Proof

@[simp] theorem cmdLen_encode_pack (len : Len) : cmdLen (encode (.pack len)) = len := by
  apply BitVec.eq_of_getLsbD_eq
  intro n hn
  simp only [cmdLen, encode, BitVec.getLsbD_extractLsb', BitVec.getLsbD_append]
  simp [hn]

@[simp] theorem cmdLen_encode_unpack (len : Len) : cmdLen (encode (.unpack len)) = len := by
  apply BitVec.eq_of_getLsbD_eq
  intro n hn
  simp only [cmdLen, encode, BitVec.getLsbD_extractLsb', BitVec.getLsbD_append]
  simp [hn]

@[simp] theorem cmdOp_encode_pack (len : Len) : cmdOp (encode (.pack len)) = false := by
  simp only [cmdOp, encode, BitVec.getLsbD_append]; simp

@[simp] theorem cmdOp_encode_unpack (len : Len) : cmdOp (encode (.unpack len)) = true := by
  simp only [cmdOp, encode, BitVec.getLsbD_append]; simp

/-- A command word is its `op` bit above its `len` field. -/
theorem cmd_ext {a b : Cmd} (hop : cmdOp a = cmdOp b) (hlen : cmdLen a = cmdLen b) : a = b := by
  apply BitVec.eq_of_getLsbD_eq
  intro n hn
  by_cases h : n < 8
  · simpa [cmdLen, h] using congrArg (BitVec.getLsbD · n) hlen
  · obtain rfl : n = 8 := by omega
    exact hop

end Sys2Proof
end

