-- ==== Sys2Proof/Laws/Operands.lean ====
section
/-! SUPPORT. Reading a part of a bus that was put together from parts gives the part, and a bus is
determined by its parts. -/

namespace Sys2Proof.Machine

@[simp] theorem getLsbD_concatBytes (n : Nat) (f : Nat → Byte) (i : Nat) :
    (concatBytes n f).getLsbD i = (decide (i < 8 * n) && (f (i / 8)).getLsbD (i % 8)) := by
  induction n with
  | zero => simp [concatBytes]
  | succ n ih =>
    simp only [concatBytes, BitVec.getLsbD_cast, BitVec.getLsbD_append, ih]
    by_cases h : i < 8 * n
    · simp [h, show i < 8 * (n + 1) by omega]
    · by_cases h' : i < 8 * (n + 1)
      · simp [h, h', show i / 8 = n by omega, show i - 8 * n = i % 8 by omega]
      · have h8 : 8 ≤ i - 8 * n := by omega
        simp [h, h', BitVec.getLsbD_of_ge _ _ h8]

@[simp] theorem getLsbD_gatherBits (n : Nat) (f : Nat → Bool) (i : Nat) :
    (gatherBits n f).getLsbD i = (decide (i < n) && f i) := by
  induction n with
  | zero => simp [gatherBits]
  | succ n ih =>
    simp only [gatherBits, BitVec.getLsbD_cons, ih]
    by_cases h : i = n
    · simp [h]
    · by_cases h' : i < n
      · simp [h, h', show i < n + 1 by omega]
      · simp [h, h', show ¬ i < n + 1 by omega]

theorem getLsbD_lane (c : CoeffBus) (i b : Nat) :
    (lane c i).getLsbD b = (decide (b < 8) && c.getLsbD (8 * i + b)) := by
  simp [lane]

theorem getLsbD_recByte (r : RecBus) (k b : Nat) :
    (recByte r k).getLsbD b = (decide (b < 8) && r.getLsbD (8 * k + b)) := by
  simp [recByte]

theorem getLsbD_recHighBits (r : RecBus) (i : Nat) :
    (recHighBits r).getLsbD i = (decide (i < 32) && r.getLsbD (128 + i)) := by
  simp [recHighBits]

theorem getLsbD_lowNibble (b : Byte) (i : Nat) :
    (lowNibble b).getLsbD i = (decide (i < 4) && b.getLsbD i) := by
  simp [lowNibble]

theorem getLsbD_highNibble (b : Byte) (i : Nat) :
    (highNibble b).getLsbD i = (decide (i < 4) && b.getLsbD (4 + i)) := by
  simp [highNibble]

theorem getLsbD_coeffBusOf (f : Nat → Byte) (i : Nat) :
    (coeffBusOf f).getLsbD i = (decide (i < 256) && (f (i / 8)).getLsbD (i % 8)) := by
  simp [coeffBusOf]

theorem getLsbD_recordOf (low : Nat → Byte) (high : HighBits) (i : Nat) :
    (recordOf low high).getLsbD i =
      if i < 128 then (low (i / 8)).getLsbD (i % 8) else high.getLsbD (i - 128) := by
  simp only [recordOf, BitVec.getLsbD_cast, BitVec.getLsbD_append, getLsbD_concatBytes]
  by_cases h : i < 128
  · simp only [h, decide_true, Bool.true_and, if_true]
  · simp only [h, if_false, show 8 * 16 = 128 from rfl]

theorem getLsbD_recordOfBytes (f : Nat → Byte) (i : Nat) :
    (recordOfBytes f).getLsbD i = (decide (i < 160) && (f (i / 8)).getLsbD (i % 8)) := by
  simp [recordOfBytes]

theorem lane_coeffBusOf (f : Nat → Byte) {i : Nat} (h : i < 32) : lane (coeffBusOf f) i = f i := by
  apply BitVec.eq_of_getLsbD_eq
  intro b hb
  rw [getLsbD_lane, getLsbD_coeffBusOf, show (8 * i + b) / 8 = i by omega,
    show (8 * i + b) % 8 = b by omega]
  simp [hb, show 8 * i + b < 256 by omega]

theorem recByte_recordOf (low : Nat → Byte) (high : HighBits) {k : Nat} (h : k < 16) :
    recByte (recordOf low high) k = low k := by
  apply BitVec.eq_of_getLsbD_eq
  intro b hb
  rw [getLsbD_recByte, getLsbD_recordOf, show (8 * k + b) / 8 = k by omega,
    show (8 * k + b) % 8 = b by omega]
  simp [hb, show 8 * k + b < 128 by omega]

theorem recHighBits_recordOf (low : Nat → Byte) (high : HighBits) :
    recHighBits (recordOf low high) = high := by
  apply BitVec.eq_of_getLsbD_eq
  intro b hb
  rw [getLsbD_recHighBits, getLsbD_recordOf]
  simp [hb]

theorem recByte_recordOfBytes (f : Nat → Byte) {k : Nat} (h : k < 20) :
    recByte (recordOfBytes f) k = f k := by
  apply BitVec.eq_of_getLsbD_eq
  intro b hb
  rw [getLsbD_recByte, getLsbD_recordOfBytes, show (8 * k + b) / 8 = k by omega,
    show (8 * k + b) % 8 = b by omega]
  simp [hb, show 8 * k + b < 160 by omega]

/-- A coefficient bus is determined by its 32 lanes. -/
theorem coeffBus_ext {a b : CoeffBus} (h : ∀ i < 32, lane a i = lane b i) : a = b := by
  apply BitVec.eq_of_getLsbD_eq
  intro n hn
  have := congrArg (BitVec.getLsbD · (n % 8)) (h (n / 8) (by omega))
  simpa only [getLsbD_lane, Nat.mod_lt n (by omega : 8 > 0), Nat.div_add_mod, decide_true,
    Bool.true_and] using this

/-- A record is determined by its 20 bytes. -/
theorem record_ext {a b : RecBus} (h : ∀ k < 20, recByte a k = recByte b k) : a = b := by
  apply BitVec.eq_of_getLsbD_eq
  intro n hn
  have := congrArg (BitVec.getLsbD · (n % 8)) (h (n / 8) (by omega))
  simpa only [getLsbD_recByte, Nat.mod_lt n (by omega : 8 > 0), Nat.div_add_mod, decide_true,
    Bool.true_and] using this

/-- A record is determined by its low-nibble bytes and its high-bit plane. -/
theorem record_ext_parts {a b : RecBus} (h : ∀ k < 16, recByte a k = recByte b k)
    (hh : recHighBits a = recHighBits b) : a = b := by
  apply BitVec.eq_of_getLsbD_eq
  intro n hn
  by_cases hlow : n < 128
  · have := congrArg (BitVec.getLsbD · (n % 8)) (h (n / 8) (by omega))
    simpa only [getLsbD_recByte, Nat.mod_lt n (by omega : 8 > 0), Nat.div_add_mod, decide_true,
      Bool.true_and] using this
  · have := congrArg (BitVec.getLsbD · (n - 128)) hh
    simpa only [getLsbD_recHighBits, show n - 128 < 32 by omega,
      show 128 + (n - 128) = n by omega, decide_true, Bool.true_and] using this

/-- A byte is determined by its two nibbles. -/
theorem nibbles_ext {a b : Byte} (hl : lowNibble a = lowNibble b) (hh : highNibble a = highNibble b) :
    a = b := by
  apply BitVec.eq_of_getLsbD_eq
  intro n hn
  by_cases h : n < 4
  · simpa only [getLsbD_lowNibble, h, decide_true, Bool.true_and]
      using congrArg (BitVec.getLsbD · n) hl
  · simpa only [getLsbD_highNibble, show n - 4 < 4 by omega, show 4 + (n - 4) = n by omega,
      decide_true, Bool.true_and] using congrArg (BitVec.getLsbD · (n - 4)) hh

@[simp] theorem lowNibble_append (h l : Nibble) : lowNibble (h ++ l) = l := by
  apply BitVec.eq_of_getLsbD_eq
  intro n hn
  rw [getLsbD_lowNibble, BitVec.getLsbD_append]
  simp [hn]

@[simp] theorem highNibble_append (h l : Nibble) : highNibble (h ++ l) = h := by
  apply BitVec.eq_of_getLsbD_eq
  intro n hn
  rw [getLsbD_highNibble, BitVec.getLsbD_append]
  simp [hn]

end Sys2Proof.Machine
end

