-- ==== Sys2Proof/Laws/State.lean ====
section
/-! SUPPORT. What each operation on the state does to each field, so that no proof unfolds a record
update. -/

namespace Sys2Proof.Machine

variable (s : State) (r : Response) (q : Request)

@[simp] theorem State.drive_cmd : (s.drive r).cmd = s.cmd := rfl
@[simp] theorem State.drive_coeffIn : (s.drive r).coeffIn = s.coeffIn := rfl
@[simp] theorem State.drive_recIn : (s.drive r).recIn = s.recIn := rfl
@[simp] theorem State.drive_status : (s.drive r).status = r.status.code := rfl
@[simp] theorem State.drive_recOut : (s.drive r).recOut = r.recOut := rfl
@[simp] theorem State.drive_coeffOut : (s.drive r).coeffOut = r.coeffOut := rfl
@[simp] theorem State.drive_settled : (s.drive r).settled = true := rfl
@[simp] theorem State.drive_pending : (s.drive r).pending = s.pending := rfl
@[simp] theorem State.drive_sampled : (s.drive r).sampled = s.sampled := rfl
@[simp] theorem State.drive_draws : (s.drive r).draws = s.draws := rfl
@[simp] theorem State.drive_request : (s.drive r).request = s.request := rfl

@[simp] theorem State.record_cmd : (s.record r).cmd = s.cmd := rfl
@[simp] theorem State.record_coeffIn : (s.record r).coeffIn = s.coeffIn := rfl
@[simp] theorem State.record_recIn : (s.record r).recIn = s.recIn := rfl
@[simp] theorem State.record_status : (s.record r).status = s.status := rfl
@[simp] theorem State.record_recOut : (s.record r).recOut = s.recOut := rfl
@[simp] theorem State.record_coeffOut : (s.record r).coeffOut = s.coeffOut := rfl
@[simp] theorem State.record_settled : (s.record r).settled = s.settled := rfl
@[simp] theorem State.record_pending : (s.record r).pending = s.pending := rfl
@[simp] theorem State.record_sampled : (s.record r).sampled = s.sampled ++ [r] := rfl
@[simp] theorem State.record_draws : (s.record r).draws = s.draws := rfl
@[simp] theorem State.record_request : (s.record r).request = s.request := rfl

@[simp] theorem State.unsettle_cmd : s.unsettle.cmd = s.cmd := rfl
@[simp] theorem State.unsettle_coeffIn : s.unsettle.coeffIn = s.coeffIn := rfl
@[simp] theorem State.unsettle_recIn : s.unsettle.recIn = s.recIn := rfl
@[simp] theorem State.unsettle_settled : s.unsettle.settled = false := rfl
@[simp] theorem State.unsettle_pending : s.unsettle.pending = s.pending := rfl
@[simp] theorem State.unsettle_sampled : s.unsettle.sampled = s.sampled := rfl
@[simp] theorem State.unsettle_draws : s.unsettle.draws = s.draws + 1 := rfl
@[simp] theorem State.unsettle_request : s.unsettle.request = s.request := rfl

@[simp] theorem State.request_cmd : s.request.cmd = s.cmd := rfl
@[simp] theorem State.request_coeffIn : s.request.coeffIn = s.coeffIn := rfl
@[simp] theorem State.request_recIn : s.request.recIn = s.recIn := rfl

/-- Presenting the request that is already held changes nothing. -/
theorem State.present_same : s.present s.request = s := by simp [State.present]

/-- Presenting another request drives it and leaves the outputs unsettled. -/
theorem State.present_other (h : q ≠ s.request) :
    s.present q = { s with cmd := q.cmd, coeffIn := q.coeffIn, recIn := q.recIn }.unsettle := by
  simp [State.present, h]

@[simp] theorem State.present_request : (s.present q).request = q := by
  by_cases h : q = s.request
  · simp [State.present, h]
  · rw [State.present_other s q h]; rfl

@[simp] theorem State.present_pending : (s.present q).pending = s.pending := by
  by_cases h : q = s.request
  · simp [State.present, h]
  · rw [State.present_other s q h]; rfl

@[simp] theorem State.present_sampled : (s.present q).sampled = s.sampled := by
  by_cases h : q = s.request
  · simp [State.present, h]
  · rw [State.present_other s q h]; rfl

theorem State.advance_nil (h : s.pending = []) : s.advance = s := by simp [State.advance, h]

theorem State.advance_cons {rest : List Request} (h : s.pending = q :: rest) :
    s.advance = { s with pending := rest }.present q := by simp [State.advance, h]

@[simp] theorem State.advance_sampled : s.advance.sampled = s.sampled := by
  cases h : s.pending with
  | nil => rw [State.advance_nil s h]
  | cons q rest => rw [State.advance_cons s q h]; simp

/-- A status's code reads back as the status: no settled response is taken for a fault. -/
@[simp] theorem Status.ofCode_code (st : Status) : Status.ofCode st.code = some st := by
  cases st <;> rfl

/-- Sampling settled outputs gives the response that was driven. -/
@[simp] theorem State.sample_drive : (s.drive r).sample = .ok r := by
  simp [State.sample]

/-- All a sample can be: the status the port codes with the two data ports, or the fault of code 3. -/
theorem State.sample_cases :
    (∃ st : Status, s.status = st.code ∧ s.sample = .ok ⟨st, s.recOut, s.coeffOut⟩) ∨
      (s.status = 3#2 ∧ s.sample = .error .statusThree) := by
  unfold State.sample
  have : ∀ c : StatusCode, c = 0#2 ∨ c = 1#2 ∨ c = 2#2 ∨ c = 3#2 := by decide
  obtain h | h | h | h := this s.status
  · exact .inl ⟨.ok, h, by rw [h]; rfl⟩
  · exact .inl ⟨.invalidLength, h, by rw [h]; rfl⟩
  · exact .inl ⟨.outOfRange, h, by rw [h]; rfl⟩
  · exact .inr ⟨h, by rw [h]; rfl⟩

/-- All the host's turn can be: a sample recorded and the script advanced, or the fault of code 3. -/
theorem State.hostTurn_cases :
    (∃ st : Status, s.status = st.code ∧
      s.hostTurn = .next (s.record ⟨st, s.recOut, s.coeffOut⟩).advance) ∨
      (s.status = 3#2 ∧ s.hostTurn = .fault .statusThree) := by
  obtain ⟨st, h, e⟩ | ⟨h, e⟩ := s.sample_cases
  · exact .inl ⟨st, h, by rw [State.hostTurn, e]⟩
  · exact .inr ⟨h, by rw [State.hostTurn, e]⟩

/-- Raising an error carries its code and no data. -/
@[simp] theorem raise_status (e : Status) : (raise e).status = e := rfl
@[simp] theorem raise_recOut (e : Status) : (raise e).recOut = 0#160 := rfl
@[simp] theorem raise_coeffOut (e : Status) : (raise e).coeffOut = 0#256 := rfl

end Sys2Proof.Machine
end

