-- ==== Sys2Proof/Laws/Eval.lean ====
section
/-! SUPPORT. What the checks, PACK and UNPACK say, part by part, and that the meanings compute `eval`. -/

namespace Sys2Proof.Machine

theorem lengthOk_iff (len : Len) : lengthOk len = true ↔ len = 32#8 := by simp [lengthOk]

theorem rangeOk_iff (c : CoeffBus) : rangeOk c = true ↔ ∀ i < 32, lane c i ≤ 31#8 := by
  simp [rangeOk]

/-- A byte is at most 31 exactly when its bits 7 to 5 are 0 (R87). -/
theorem le_31_iff : ∀ b : Byte, b ≤ 31#8 ↔
    b.getLsbD 5 = false ∧ b.getLsbD 6 = false ∧ b.getLsbD 7 = false := by decide

/-- A lane above 31 fails the range check. -/
theorem rangeOk_of_lane_gt {c : CoeffBus} {i : Nat} (hi : i < 32) (h : 31#8 < lane c i) :
    rangeOk c = false := by
  by_contra hc
  rw [Bool.not_eq_false, rangeOk_iff] at hc
  have := hc i hi
  rw [BitVec.le_def] at this
  rw [BitVec.lt_def] at h
  omega

/-- An in-range lane is its high bit above its low nibble: bits 5, 6 and 7 are 0. -/
theorem getLsbD_of_le_31 {b : Byte} (h : b ≤ 31#8) {n : Nat} (hn : 5 ≤ n) : b.getLsbD n = false := by
  by_cases h8 : n < 8
  · have := (le_31_iff b).1 h
    obtain rfl | rfl | rfl : n = 5 ∨ n = 6 ∨ n = 7 := by omega
    · exact this.1
    · exact this.2.1
    · exact this.2.2
  · exact BitVec.getLsbD_of_ge _ _ (by omega)

/-! ### The status of PACK -/

theorem packStatus_of_length {len : Len} (c : CoeffBus) (h : len ≠ 32#8) :
    packStatus len c = .invalidLength := by
  simp [packStatus, lengthOk, h]

theorem packStatus_of_range {c : CoeffBus} (h : rangeOk c = false) :
    packStatus 32#8 c = .outOfRange := by
  simp [packStatus, lengthOk, h]

theorem packStatus_of_valid {c : CoeffBus} (h : rangeOk c = true) : packStatus 32#8 c = .ok := by
  simp [packStatus, lengthOk, h]

@[simp] theorem pack_status (len : Len) (c : CoeffBus) : (pack len c).status = packStatus len c := by
  unfold pack
  cases packStatus len c <;> rfl

@[simp] theorem pack_coeffOut (len : Len) (c : CoeffBus) : (pack len c).coeffOut = 0#256 := by
  unfold pack
  cases packStatus len c <;> rfl

theorem pack_recOut_of_valid {c : CoeffBus} (h : rangeOk c = true) :
    (pack 32#8 c).recOut = packRecord c := by
  simp [pack, packStatus_of_valid h]

theorem pack_recOut_of_error {len : Len} {c : CoeffBus} (h : packStatus len c ≠ .ok) :
    (pack len c).recOut = 0#160 := by
  unfold pack
  cases hs : packStatus len c <;> simp_all [raise]

/-! ### The datapaths -/

theorem recByte_packRecord (c : CoeffBus) {j : Nat} (h : j < 16) :
    recByte (packRecord c) j = packByte c j := recByte_recordOf _ _ h

theorem recHighBits_packRecord (c : CoeffBus) : recHighBits (packRecord c) = packHighBits c :=
  recHighBits_recordOf _ _

theorem getLsbD_packHighBits (c : CoeffBus) (i : Nat) :
    (packHighBits c).getLsbD i = (decide (i < 32) && c.getLsbD (8 * i + 4)) := by
  simp only [packHighBits, getLsbD_gatherBits, highBit, getLsbD_lane]
  rfl

/-- Which bit of the block each bit of the record is (R37 read backwards). -/
theorem getLsbD_packRecord (c : CoeffBus) (n : Nat) :
    (packRecord c).getLsbD n =
      if n < 128 then
        if n % 8 < 4 then c.getLsbD (8 * (n / 8) + n % 8)
        else c.getLsbD (8 * (n / 8 + 16) + (n % 8 - 4))
      else decide (n < 160) && c.getLsbD (8 * (n - 128) + 4) := by
  rw [packRecord, getLsbD_recordOf]
  by_cases h : n < 128
  · simp only [h, if_true, packByte, BitVec.getLsbD_append, getLsbD_lowNibble, getLsbD_lane]
    by_cases h4 : n % 8 < 4
    · simp [h4, show n % 8 < 8 by omega]
    · simp [h4, show n % 8 - 4 < 4 by omega, show n % 8 - 4 < 8 by omega]
  · rw [if_neg h, if_neg h, getLsbD_packHighBits,
      decide_eq_decide.mpr (show n - 128 < 32 ↔ n < 160 by omega)]

/-- Which bit of the record each bit of an unpacked lane is (R37). -/
theorem getLsbD_unpackLane (r : RecBus) {j : Nat} (hj : j < 32) (b : Nat) :
    (unpackLane r j).getLsbD b =
      if b < 4 then r.getLsbD (if j < 16 then 8 * j + b else 8 * (j - 16) + 4 + b)
      else decide (b = 4) && r.getLsbD (128 + j) := by
  unfold unpackLane
  simp only [BitVec.getLsbD_setWidth, BitVec.getLsbD_append]
  by_cases hb : b < 4
  · by_cases h16 : j < 16
    · simp only [hb, h16, if_true, getLsbD_lowNibble, getLsbD_recByte, Nat.mod_eq_of_lt h16,
        show b < 8 by omega, decide_true, Bool.true_and]
    · simp only [hb, h16, if_true, if_false, getLsbD_highNibble, getLsbD_recByte,
        show j % 16 = j - 16 by omega, show b < 8 by omega, show 4 + b < 8 by omega, decide_true,
        Bool.true_and, Nat.add_assoc]
  · by_cases h4 : b = 4
    · subst h4
      generalize r.getLsbD (128 + j) = h
      cases h <;> rfl
    · simp only [hb, h4, if_false, decide_false, Bool.false_and,
        BitVec.getLsbD_of_ge (BitVec.ofBool (r.getLsbD (128 + j))) (b - 4) (by omega), Bool.and_false]

/-- Every lane of an unpacked record is in range. -/
theorem unpackLane_le (r : RecBus) {j : Nat} (hj : j < 32) : unpackLane r j ≤ 31#8 := by
  rw [le_31_iff]
  refine ⟨?_, ?_, ?_⟩ <;> rw [getLsbD_unpackLane _ hj] <;> rfl

@[simp] theorem unpack_status (r : RecBus) : (unpack r).status = .ok := rfl
@[simp] theorem unpack_recOut (r : RecBus) : (unpack r).recOut = 0#160 := rfl

theorem lane_unpack (r : RecBus) {j : Nat} (h : j < 32) :
    lane (unpack r).coeffOut j = unpackLane r j := lane_coeffBusOf _ h

/-! ### The meanings compute `eval` -/

theorem eval_of_pack {q : Request} (h : cmdOp q.cmd = false) :
    eval q = pack (cmdLen q.cmd) q.coeffIn := by simp [eval, h]

theorem eval_of_unpack {q : Request} (h : cmdOp q.cmd = true) : eval q = unpack q.recIn := by
  simp [eval, h]

/-- The instruction on the command port, executed, drives `eval` of the request on the ports. -/
theorem exec_fetch (s : State) : exec (fetch s) s = .next (s.drive (eval s.request)) := by
  cases h : cmdOp s.cmd
  · simp [fetch, decodeCmd, h, exec, execPack, eval]
  · simp [fetch, decodeCmd, h, exec, execUnpack, eval]

/-- PACK of a block that passes both checks drives its record. -/
theorem exec_pack_of_valid {s : State} (h : ∀ i < 32, lane s.coeffIn i ≤ 31#8) :
    exec (.pack 32#8) s = .next (s.drive ⟨.ok, packRecord s.coeffIn, 0#256⟩) := by
  simp [exec, execPack, pack, packStatus_of_valid ((rangeOk_iff _).2 h)]

/-- PACK that fails a check drives the error and nothing else. -/
theorem exec_pack_of_error {s : State} {len : Len} (h : packStatus len s.coeffIn ≠ .ok) :
    exec (.pack len) s = .next (s.drive (raise (packStatus len s.coeffIn))) := by
  simp only [exec, execPack, pack]

/-- All that holding a request can do: drive `eval` of it, or leave the outputs a draw. -/
theorem holdFor_cases (s : State) (t : Nat) :
    ((s.settled = true ∨ Config.tPd ≤ t) ∧ s.holdFor t = s.drive (eval s.request)) ∨
      (s.settled = false ∧ t < Config.tPd ∧ s.holdFor t = s.unsettle) := by
  unfold State.holdFor
  cases h : s.settled
  · by_cases ht : Config.tPd ≤ t
    · exact .inl ⟨.inr ht, by simp [ht]⟩
    · exact .inr ⟨rfl, by omega, by simp [ht]⟩
  · exact .inl ⟨.inl rfl, by simp⟩

/-- The one thing executing an instruction can do: drive some response. -/
theorem exec_cases (i : Instr) (s : State) :
    (∃ len, i = .pack len ∧ exec i s = .next (s.drive (pack len s.coeffIn))) ∨
      (∃ len, i = .unpack len ∧ exec i s = .next (s.drive (unpack s.recIn))) := by
  cases i with
  | pack len => exact .inl ⟨len, rfl, rfl⟩
  | unpack len => exact .inr ⟨len, rfl, rfl⟩

end Sys2Proof.Machine
end

