-- ==== Sys2Proof/Laws/PerInstr.lean ====
section
/-! SUPPORT. Statements about every instruction as syntax, one lemma a constructor. -/

namespace Sys2Proof.Laws

/-- Whether an instruction is UNPACK. -/
def isUnpack : Instr → Bool
  | .pack _ => false
  | .unpack _ => true

/-- The family: bit 8 of an encoded instruction says which operation it is (R53). -/
def OpBit.Statement (i : Instr) : Prop := cmdOp (encode i) = isUnpack i

theorem OpBit.pack (len : Len) : OpBit.Statement (.pack len) := cmdOp_encode_pack len

theorem OpBit.unpack (ignored : Len) : OpBit.Statement (.unpack ignored) :=
  cmdOp_encode_unpack ignored

end Sys2Proof.Laws
end

