-- ==== Sys2Proof/Laws/Step.lean ====
section
/-! SUPPORT. All that a step can do, said once. -/

namespace Sys2Proof.Machine

/-- The host's turn on settled outputs samples the response that was driven. -/
theorem hostTurn_drive (s : State) (r : Response) :
    (s.drive r).hostTurn = .next ((s.drive r).record r).advance := by
  simp [State.hostTurn]

/-- A step evaluates the held request, samples the response, and goes on. -/
theorem step_eq (s : State) :
    step s = .next ((s.drive (eval s.request)).record (eval s.request)).advance := by
  simp [step, exec_fetch, hostTurn_drive]

/-- The same as cases: with no script left the request stays on the ports, with one left its head is
presented. -/
theorem step_cases (s : State) :
    (s.pending = [] ∧ step s = .next ((s.drive (eval s.request)).record (eval s.request))) ∨
      (∃ q rest, s.pending = q :: rest ∧
        step s = .next ({ (s.drive (eval s.request)).record (eval s.request) with
          pending := rest }.present q)) := by
  rw [step_eq]
  cases h : s.pending with
  | nil => exact .inl ⟨rfl, by rw [State.advance_nil _ (by simpa using h)]⟩
  | cons q rest => exact .inr ⟨q, rest, rfl, by rw [State.advance_cons _ q (by simpa using h)]⟩

/-- A run of one more step takes that step first, on any machine. -/
theorem run_succ_of_next (M : Host.Core) {s t : M.State} (n : Nat) (h : M.step s = .next t) :
    M.run (n + 1) s = M.run n t := by
  simp only [Host.Core.run, h]

/-- The same for this machine. -/
theorem core_run_succ {s t : State} (n : Nat) (h : step s = .next t) :
    Host.Core.run Sys2Proof.core (n + 1) s = Host.Core.run Sys2Proof.core n t :=
  run_succ_of_next Sys2Proof.core n h

/-- Driving `eval` of the request makes the ports agree with it. -/
theorem portsAgree_drive (s : State) : (s.drive (eval s.request)).PortsAgree := by
  intro _
  simp

/-- Presenting a request keeps the agreement of settled ports. -/
theorem portsAgree_present {s : State} (h : s.PortsAgree) (q : Request) :
    (s.present q).PortsAgree := by
  by_cases hq : q = s.request
  · rw [hq, State.present_same]; exact h
  · intro hs
    rw [State.present_other s q hq] at hs
    simp at hs

end Sys2Proof.Machine
end

