-- ==== Sys2Proof/Tests/Slice0.lean ====
section
/-! SUPPORT. Tests. Expected values are those written in spec/95_test_vectors.md (the section is named at
each test), in the corner-case tables R76 and R84, or in the rule named; none is the model's own output.
The theorems `test_witness_…` show that the hypotheses of an obligation can be met. -/

namespace Sys2Proof.Tests

open Sys2Proof.Machine

/-- A state with these input ports. -/
def ports (cmd : Cmd) (c : CoeffBus) (r : RecBus) : State :=
  { State.reset with cmd := cmd, coeffIn := c, recIn := r }

/-- The output ports of a next state. -/
def outputs : Host.Outcome State Fault Refusal → Option (StatusCode × RecBus × CoeffBus)
  | .next t => some (t.status, t.recOut, t.coeffOut)
  | _ => none

/-- The observation of a next state. -/
def observed : Host.Outcome State Fault Refusal → Option (List Response)
  | .next t => some t.sampled
  | _ => none

/-- The block of 95_test_vectors.md section 1.3, lane 31 first. -/
def scenario : CoeffBus := 0x18191A1B1C1D1E0C0D0E0F101112060708090A0B0C0D0E0F1E000305021F0611#256

/-- Its record, byte 19 first (section 1.3; 90_conflicts.md C1: byte 0 is 0x71). -/
def scenarioRecord : RecBus := 0xFE1C00858899AABBCCDDEECFDEE0F305122F6671#160

/-- A bus with one nonzero lane. -/
def oneLane (i : Nat) (b : Byte) : CoeffBus := coeffBusOf fun k => if k = i then b else 0#8

/-! ### Well-formedness (R66) -/

theorem test_wf_line_ok : (Line.pack 32 (List.replicate 32 31)).wellFormed = true := by decide
theorem test_wf_len_too_big : (Line.pack 256 (List.replicate 32 0)).wellFormed = false := by decide
theorem test_wf_lane_count : (Line.pack 32 (List.replicate 31 0)).wellFormed = false := by decide
theorem test_wf_lane_too_big : (Line.pack 32 (256 :: List.replicate 31 0)).wellFormed = false := by
  decide
theorem test_wf_byte_count : (Line.unpack (List.replicate 21 0)).wellFormed = false := by decide
theorem test_wf_byte_too_big : (Line.unpack (256 :: List.replicate 19 0)).wellFormed = false := by
  decide
theorem test_wf_every_instruction :
    (Instr.pack 255#8).wellFormed = true ∧ (Instr.unpack 1#8).wellFormed = true := by decide

/-! ### Decoding, the words written bit by bit from R64: `0LLLLLLLL` and `1xxxxxxxx` -/

theorem test_decode_pack_32 : decodeCmd 0b000100000#9 = .pack 32#8 := by decide
theorem test_decode_pack_33 : decodeCmd 0b000100001#9 = .pack 33#8 := by decide
theorem test_decode_unpack : decodeCmd 0b100000000#9 = .unpack 0#8 := by decide
theorem test_decode_unpack_len : decodeCmd 0b111111111#9 = .unpack 255#8 := by decide
theorem test_encode_pack : encode (.pack 32#8) = 0x020#9 := by decide
theorem test_encode_unpack : encode (.unpack 0#8) = 0x100#9 := by decide
theorem test_decode_bytes_refused : decode [0x20#8, 0x02#8] = .error .notACommandWord ∧
    decode [0x20#8] = .error .truncated := by decide
theorem test_table_word_pack : decodeTableWord 16 0x020 = some (.pack 32#8) := by decide
theorem test_table_word_unpack : decodeTableWord 16 0x100 = some (.unpack 0#8) := by decide

/-! ### PACK -/

/-- Section 1.3. -/
theorem test_pack_scenario :
    outputs (exec (.pack 32#8) (ports 0x020#9 scenario 0#160)) =
      some (0#2, scenarioRecord, 0#256) := by decide

/-- Section 2.1, "lane 16 = 31": `F0`, `00` x 17, `01 00`; any `rec_in` gives the same. -/
theorem test_pack_lane_16 :
    outputs (exec (.pack 32#8) (ports 0x020#9 (oneLane 16 31#8) scenarioRecord)) =
      some (0#2, 0x00010000000000000000000000000000000000F0#160, 0#256) := by decide

/-- Section 2.2, lane 5 = 128: only bit 7 set. -/
theorem test_pack_out_of_range :
    outputs (exec (.pack 32#8) (ports 0x020#9 (oneLane 5 128#8) 0#160)) =
      some (2#2, 0#160, 0#256) := by decide

/-- Section 2.2, last row: both checks fail and the length wins. -/
theorem test_pack_both_errors :
    outputs (exec (.pack 31#8) (ports 0x01F#9 (oneLane 0 32#8) 0#160)) =
      some (1#2, 0#160, 0#256) := by decide

/-- Section 1.1, the all-31 block, with the pieces of the datapath run backwards (R72). -/
theorem test_pack_in_order :
    packInOrder (coeffBusOf fun _ => 31#8) (List.range 32).reverse =
      0xFFFFFFFFFFFFFFFFFFFFFFFFFFFFFFFFFFFFFFFF#160 := by decide +kernel

/-! ### UNPACK -/

/-- Section 3, P3 line 1: ignored inputs set on purpose. -/
theorem test_unpack_ignored_inputs :
    outputs (exec (.unpack 255#8) (ports 0x1FF#9 (coeffBusOf fun _ => 255#8)
      0x131211100F0E0D0C0B0A09080706050403020100#160)) =
      some (0#2, 0#160, coeffBusOf (byteAt [0, 1, 2, 3, 20, 5, 6, 7, 24, 9, 10, 11, 28, 13, 14, 15,
        0, 16, 0, 0, 16, 0, 0, 0, 16, 16, 0, 0, 16, 0, 0, 0])) := by decide

/-- R84: only `high_bits[16]` (byte 18 = 01) gives lane 16 = 16. -/
theorem test_unpack_high_bit_16 :
    outputs (exec (.unpack 0#8) (ports 0x100#9 0#256 (1#160 <<< 144))) =
      some (0#2, 0#160, oneLane 16 16#8) := by decide

/-! ### Reading the ports, and the step -/

/-- R94: code 3 is a fault. -/
theorem test_sample_status_three :
    ({ State.reset with status := 3#2 } : State).sample = .error .statusThree := by decide

/-- From reset, a word placed for the next step is what it runs. -/
theorem test_step_placed_unpack :
    observed (step (State.reset.withFetchWord 16 0x100)) = some [⟨.ok, 0#160, 0#256⟩] := by decide

/-- The same for a PACK word of length 0, which is an error response and no stop (R76). -/
theorem test_step_placed_pack :
    observed (step (State.reset.withFetchWord 16 0x000)) =
      some [⟨.invalidLength, 0#160, 0#256⟩] := by decide

/-- A step with a script samples the response and presents the next request. -/
theorem test_step_presents_next :
    (match step (State.reset.load ⟨0x020#9, scenario, 0#160⟩ [⟨0x100#9, 0#256, scenarioRecord⟩]) with
      | .next t => some (t.cmd, t.recIn, t.settled, t.pending.length)
      | _ => none) = some (0x100#9, scenarioRecord, false, 0) := by decide

/-- Presenting one changed bit unsettles the outputs; presenting the held request does not (R117). -/
theorem test_present_same_keeps :
    (((ports 0x020#9 scenario 0#160).drive ⟨.ok, scenarioRecord, 0#256⟩).present
      ⟨0x020#9, scenario, 0#160⟩).settled = true := by decide
theorem test_present_changed_unsettles :
    (((ports 0x020#9 scenario 0#160).drive ⟨.ok, scenarioRecord, 0#256⟩).present
      ⟨0x020#9, scenario, 1#160⟩).settled = false := by decide

/-! ### The host's encodings (section 2.2, P4) and the assembler (R66 to R68) -/

theorem test_packl_negative : sourcePack (-1 :: List.replicate 31 0) = .error .outOfRange := by
  decide
theorem test_packl_261 : sourcePack (261 :: List.replicate 31 0) = .error .outOfRange := by decide
theorem test_packl_288 : sourcePack (List.replicate 288 0) = .error .invalidLength := by
  decide +kernel
theorem test_packl_31 : sourcePack (List.replicate 31 0) = .error .invalidLength := by decide
theorem test_words_of_a_record : recWordLE scenarioRecord 4 = 0xFE1C0085#32 := by decide

/-- P1 line 2. -/
theorem test_assemble_unpack_text :
    assembleText "UNPACK [71 66 2F 12 05 F3 E0 DE CF EE DD CC BB AA 99 88 85 00 1C FE]".toList =
      some ⟨0x100#9, 0#256, scenarioRecord⟩ := by decide +kernel

/-- R66: decimal, hexadecimal with `0x`, negative numbers in a PACKL line; braces by their codes. -/
theorem test_parse_packl_text :
    parseLine ("PACKL ".toList ++ [Char.ofNat 0x7B] ++ "-1, 0x1F, 261".toList ++ [Char.ofNat 0x7D]) =
      some (.packl [-1, 31, 261]) := by decide +kernel
/-- Log entry 12: R66 gives a lane value no sign, so `-0` in a PACK line is refused. -/
theorem test_parse_pack_text_no_sign :
    parseLine ("PACK 32, ".toList ++ [Char.ofNat 0x7B] ++ "-0, 6".toList ++ [Char.ofNat 0x7D]) =
      none := by decide +kernel
theorem test_parse_pack_text :
    parseLine ("PACK 32, ".toList ++ [Char.ofNat 0x7B] ++ "17, 0x06".toList ++ [Char.ofNat 0x7D]) =
      some (.pack 32 [17, 6]) := by decide +kernel

/-- R67, for P2 line 1 (`cmd=0x01F`), the command word alone. -/
theorem test_show_cmd : showCmd 0x01F#9 = "cmd=0x01F".toList := by decide +kernel

/-- R66's way of writing a response. -/
theorem test_show_response :
    showResponse false ⟨.ok, scenarioRecord, 0#256⟩ =
      "status=OK 71 66 2F 12 05 F3 E0 DE CF EE DD CC BB AA 99 88 85 00 1C FE".toList := by
  decide +kernel

/-! ### Witnesses for the hypotheses of the obligations -/

theorem test_witness_BitEightSelectsTheOperation :
    (0x020#9).getLsbD 8 = false ∧ (0x1FF#9).getLsbD 8 = true := by decide
theorem test_witness_DecodeEncodeAgree :
    (Instr.unpack 7#8).wellFormed = true ∧
      decode [0x07#8, 0x01#8, 0xAA#8] = .ok (.unpack 7#8, [0xAA#8]) := by decide
theorem test_witness_PlacedWordIsFetched : decodeTableWord 9 0x1FF = some (.unpack 255#8) := by decide
theorem test_witness_StepRunsTheDecodedOperation_held :
    decodeCmd (ports 0x020#9 scenario 0#160).cmd = .pack 32#8 ∧
      (ports 0x020#9 scenario 0#160).pending = [] := by decide
theorem test_witness_StepRunsTheDecodedOperation_script :
    ({ ports 0x100#9 0#256 1#160 with pending := [⟨0x020#9, 0#256, 0#160⟩] } : State).pending =
      ⟨0x020#9, 0#256, 0#160⟩ :: [] := by decide
theorem test_witness_EvaluationFrame : (match exec (.unpack 0#8) (ports 0x100#9 0#256 1#160) with
    | .next t => some t.settled | _ => none) = some true := by decide
theorem test_witness_valid_block :
    ∀ i < 32, lane (ports 0x020#9 scenario 0#160).coeffIn i ≤ 31#8 := by decide
theorem test_witness_max_block : ∀ i < 32, lane (coeffBusOf fun _ => 31#8) i ≤ 31#8 := by decide
theorem test_witness_PackOfWrongLength : (31#8 : Len) ≠ 32#8 ∧ (33#8 : Len) ≠ 32#8 := by decide
theorem test_witness_PackOfOutOfRangeLane :
    31 < 32 ∧ 31#8 < lane (ports 0x020#9 (oneLane 31 32#8) 0#160).coeffIn 31 := by decide
theorem test_witness_StatusPriority_unpack : (ports 0x120#9 0#256 0#160).cmd.getLsbD 8 = true := by
  decide
theorem test_witness_StatusPriority_length : (ports 0x021#9 0#256 0#160).cmd.getLsbD 8 = false ∧
    (ports 0x021#9 0#256 0#160).cmd.extractLsb' 0 8 ≠ 32#8 := by decide
theorem test_witness_StatusPriority_range : (ports 0x020#9 (oneLane 0 32#8) 0#160).cmd.getLsbD 8 =
    false ∧ (ports 0x020#9 (oneLane 0 32#8) 0#160).cmd.extractLsb' 0 8 = 32#8 ∧
    31#8 < lane (ports 0x020#9 (oneLane 0 32#8) 0#160).coeffIn 0 := by decide
theorem test_witness_StatusPriority_ok : (ports 0x020#9 (oneLane 0 31#8) 0#160).cmd.getLsbD 8 =
    false ∧ (ports 0x020#9 (oneLane 0 31#8) 0#160).cmd.extractLsb' 0 8 = 32#8 ∧ ∀ i < 32, lane (ports 0x020#9 (oneLane 0 31#8) 0#160).coeffIn i ≤ 31#8 := by decide
theorem test_witness_RangeCheckForms : (List.replicate 32 (31 : Int)).length = 32 := by decide
theorem test_witness_ValidationTestList : lane (ports 0x020#9 (oneLane 7 32#8) 0#160).coeffIn 7 = 32#8 := by
  decide
theorem test_witness_NoPartialRecord_error :
    (match exec (.pack 31#8) (ports 0x01F#9 0#256 0#160) with
      | .next t => some t.status | _ => none) ≠ some 0#2 := by decide
theorem test_witness_NoPartialRecord_zero : (ports 0x020#9 0#256 0#160).coeffIn = 0#256 := by decide
theorem test_witness_PackBitIsolation_low :
    (∀ k < 32, k ≠ 16 → lane (oneLane 16 7#8) k = lane (oneLane 16 6#8) k) ∧
      (lane (oneLane 16 7#8) 16).getLsbD 4 = (lane (oneLane 16 6#8) 16).getLsbD 4 ∧
      (∀ k < 32, lane (oneLane 16 7#8) k ≤ 31#8) ∧ ∀ k < 32, lane (oneLane 16 6#8) k ≤ 31#8 := by
  decide
theorem test_witness_PackBitIsolation_high :
    (∀ k < 32, k ≠ 31 → lane (oneLane 31 24#8) k = lane (oneLane 31 8#8) k) ∧
      (lane (oneLane 31 24#8) 31).extractLsb' 0 4 = (lane (oneLane 31 8#8) 31).extractLsb' 0 4 ∧
      (∀ k < 32, lane (oneLane 31 24#8) k ≤ 31#8) ∧ ∀ k < 32, lane (oneLane 31 8#8) k ≤ 31#8 := by
  decide
theorem test_witness_PassesInAnyOrder : (List.range 32).reverse.Perm (List.range 32) :=
  List.reverse_perm _
theorem test_witness_PackSingleLaneCorners :
    (∀ k < 32, k ≠ 15 → lane (ports 0x020#9 (oneLane 15 16#8) 0#160).coeffIn k = 0#8) ∧
      lane (oneLane 15 16#8) 15 = 16#8 ∧ lane (oneLane 16 15#8) 16 = 15#8 ∧
      lane (oneLane 31 31#8) 31 = 31#8 := by decide
theorem test_witness_UnpackSingleBit :
    (ports 0x100#9 0#256 (1#160 <<< 159)).recIn = 1#160 <<< 159 ∧ 159 < 160 := by decide
theorem test_witness_IgnoredInputs :
    (ports 0x020#9 scenario 0#160).coeffIn = (ports 0x020#9 scenario 1#160).coeffIn ∧
      (ports 0x100#9 0#256 1#160).recIn = (ports 0x1FF#9 1#256 1#160).recIn := by decide
theorem test_witness_RoundTripBlockFirst :
    (ports 0x020#9 scenario 0#160).cmd.getLsbD 8 = false ∧
      (ports 0x020#9 scenario 0#160).cmd.extractLsb' 0 8 = 32#8 ∧
      (ports 0x1FF#9 0#256 scenarioRecord).cmd.getLsbD 8 = true := by decide
theorem test_witness_RoundTripRecordFirst :
    (ports 0x100#9 0#256 scenarioRecord).cmd.getLsbD 8 = true ∧
      (ports 0x020#9 scenario 0#160).cmd = 0x020#9 ∧
      (unpack (ports 0x100#9 0#256 scenarioRecord).recIn).coeffOut =
        (ports 0x020#9 scenario 0#160).coeffIn := by decide
theorem test_witness_SourceRoundTrips_packs :
    (match sourcePack (List.replicate 32 0) with | .ok p => some p.highBits | _ => none) =
      some 0#32 := by decide
theorem test_witness_SourceRoundTrips :
    (List.replicate 32 (31 : Int)).length = 32 ∧
      ∀ v ∈ List.replicate 32 (31 : Int), 0 ≤ v ∧ v ≤ 31 := by decide
theorem test_witness_HostLengthEncoding : 255 ≤ 255 ∧ 255 < 256 := by decide
theorem test_witness_HostElementEncoding :
    (0 ≤ (255 : Int) ∧ (255 : Int) ≤ 255) ∧ ¬(0 ≤ (256 : Int) ∧ (256 : Int) ≤ 255) ∧
      ¬(0 ≤ (-1 : Int) ∧ (-1 : Int) ≤ 255) ∧ 31 < (List.replicate 32 (0 : Int)).length ∧
      (List.replicate 31 (0 : Int)).length ≤ 31 ∧
      (List.replicate 33 (0 : Int)).take 32 = (List.replicate 40 (0 : Int)).take 32 := by decide
theorem test_witness_no_script : State.reset.pending = [] := by decide
theorem test_witness_AssembledLineOnThePorts :
    (assemble (.pack 255 (List.replicate 32 255))).isSome = true ∧
      (assemble (.unpack (List.replicate 20 255))).isSome = true := by decide
theorem test_witness_AssembledLineOnThePorts_packl :
    31 < (List.replicate 32 (-1 : Int)).length ∧ (List.replicate 31 (-1 : Int)).length ≤ 31 := by
  decide
theorem test_witness_ResponseIgnoresHistory :
    (ports 0x020#9 scenario 0#160).request =
      ((ports 0x020#9 scenario 0#160).drive ⟨.outOfRange, 1#160, 1#256⟩).request := by decide
theorem test_witness_PresentingUnsettles :
    (⟨0x020#9, scenario, 1#160⟩ : Request) ≠ ⟨0x020#9, scenario, 0#160⟩ := by decide
theorem test_witness_HeldRequestSettles : Config.tPd ≤ Config.tPd := Nat.le_refl _
theorem test_witness_StatusPortReading :
    ({ State.reset with status := 0#2 } : State).status = 0#2 ∧
      ({ State.reset with status := 1#2 } : State).status = 1#2 ∧
      ({ State.reset with status := 2#2 } : State).status = 2#2 ∧
      ({ State.reset with status := 3#2 } : State).status = 3#2 := by decide
theorem test_witness_InvariantIsKept :
    ((ports 0x100#9 0#256 0#160).drive ⟨.ok, 0#160, 0#256⟩).Inv ∧
      observed (step ((ports 0x100#9 0#256 0#160).drive ⟨.ok, 0#160, 0#256⟩)) =
        some [⟨.ok, 0#160, 0#256⟩] := by
  refine ⟨⟨fun _ => by decide, fun r hr => ?_⟩, by decide⟩
  exact absurd hr (List.not_mem_nil)

end Sys2Proof.Tests
end

section
/-! Proofs of the obligations about the state and the run (10_state.md), over the laws of State, Eval and
Step. -/

namespace Sys2Proof.Machine

/-! ### What the host's actions leave on the ports -/

@[simp] theorem State.present_cmd (s : State) (q : Request) : (s.present q).cmd = q.cmd :=
  congrArg Request.cmd (s.present_request q)

@[simp] theorem State.present_coeffIn (s : State) (q : Request) :
    (s.present q).coeffIn = q.coeffIn :=
  congrArg Request.coeffIn (s.present_request q)

@[simp] theorem State.present_recIn (s : State) (q : Request) : (s.present q).recIn = q.recIn :=
  congrArg Request.recIn (s.present_request q)

@[simp] theorem State.load_request (s : State) (q : Request) (rest : List Request) :
    (s.load q rest).request = q := by
  simp [State.load]

@[simp] theorem State.load_pending (s : State) (q : Request) (rest : List Request) :
    (s.load q rest).pending = rest := by
  simp [State.load]

@[simp] theorem State.load_sampled (s : State) (q : Request) (rest : List Request) :
    (s.load q rest).sampled = s.sampled := by
  simp [State.load]

/-- Going on takes the head off the script. -/
@[simp] theorem State.advance_pending (s : State) : s.advance.pending = s.pending.tail := by
  cases h : s.pending with
  | nil => simp [State.advance_nil s h, h]
  | cons q rest => simp [State.advance_cons s q h]

/-- Going on puts the head of the script on the input ports, or keeps what they hold. -/
@[simp] theorem State.advance_request (s : State) :
    s.advance.request = s.pending.headD s.request := by
  cases h : s.pending with
  | nil => simp [State.advance_nil s h]
  | cons q rest => simp [State.advance_cons s q h]

/-! ### Executing and stepping, seen from the host -/

/-- Executing any instruction writes the output ports by one `drive`, and nothing else. -/
theorem exec_eq_drive (i : Instr) (s : State) : ∃ r, exec i s = .next (s.drive r) := by
  obtain ⟨_, _, h⟩ | ⟨_, _, h⟩ := exec_cases i s
  · exact ⟨_, h⟩
  · exact ⟨_, h⟩

/-- A step always completes, samples `eval` of the held request, and moves the script on by one. -/
theorem step_observes_eval (s : State) : ∃ t, step s = .next t ∧
    t.sampled = s.sampled ++ [eval s.request] ∧ t.pending = s.pending.tail ∧
      t.request = s.pending.headD s.request :=
  ⟨_, step_eq s, by simp, by simp, by simp⟩

/-- Running a step for the held request and one for each request of the script observes them in order. -/
theorem run_script_observes_eval (script : List Request) (s : State) (h : s.pending = script) :
    ∃ t, Host.Core.run Sys2Proof.core (script.length + 1) s = .next t ∧ t.pending = [] ∧
      t.sampled = s.sampled ++ (s.request :: script).map eval := by
  induction script generalizing s with
  | nil =>
    obtain ⟨t, hstep, hsampled, hpending, -⟩ := step_observes_eval s
    exact ⟨t, core_run_succ 0 hstep, by simp [hpending, h], by simp [hsampled]⟩
  | cons q rest ih =>
    obtain ⟨t, hstep, hsampled, hpending, hrequest⟩ := step_observes_eval s
    obtain ⟨u, hrun, hdone, hobs⟩ := ih t (by simp [hpending, h])
    have hq : t.request = q := by simp [hrequest, h]
    exact ⟨u, (core_run_succ _ hstep).trans hrun, hdone, by simp [hobs, hsampled, hq]⟩

/-- A built program continues from the state its first step reaches. -/
theorem machineRun_cons_of_next {build : List Response → Request}
    {more : List (List Response → Request)} {s t : State}
    (h : step (s.present (build s.sampled)) = .next t) :
    machineRun (build :: more) s = machineRun more t := by
  simp only [machineRun, h]

/-- `hostRun` adds one response for each request built. -/
theorem length_hostRun (program : List (List Response → Request)) (seen : List Response) :
    (hostRun program seen).length = seen.length + program.length := by
  induction program generalizing seen with
  | nil => rfl
  | cons build more ih => simp [hostRun, ih]; omega

/-- With no script of its own, the machine fed from outside observes what `hostRun` computes. -/
theorem machineRun_observes_hostRun (program : List (List Response → Request)) (s : State)
    (h : s.pending = []) :
    ∃ t, machineRun program s = .next t ∧ t.pending = [] ∧
      t.sampled = hostRun program s.sampled := by
  induction program generalizing s with
  | nil => exact ⟨s, rfl, h, rfl⟩
  | cons build more ih =>
    obtain ⟨t, hstep, hsampled, hpending, -⟩ :=
      step_observes_eval (s.present (build s.sampled))
    obtain ⟨u, hrun, hdone, hobs⟩ := ih t (by simp [hpending, h])
    refine ⟨u, (machineRun_cons_of_next hstep).trans hrun, hdone, ?_⟩
    rw [hobs, hsampled, State.present_request, State.present_sampled]
    rfl

/-! ### The word of the opcode table -/

/-- The two bytes of a word below 65536, low byte first, spell that word again. -/
theorem toNat_bytes_of_lt {m : Nat} (h : m < 65536) :
    (BitVec.ofNat 8 m).toNat + 256 * (BitVec.ofNat 8 (m / 256)).toNat = m := by
  simp only [BitVec.toNat_ofNat]
  omega

/-- Laid out as bytes, a table word below 512 decodes to the operation of that command word. -/
theorem decode_wordBytes_of_lt {nbits w : Nat} (h : w % 2 ^ nbits < 512) :
    decode (wordBytes nbits w) = .ok (decodeCmd (BitVec.ofNat 9 (w % 2 ^ nbits)), []) := by
  simp only [wordBytes, decode, toNat_bytes_of_lt (show w % 2 ^ nbits < 65536 by omega), cmdOfNat,
    if_pos h]

/-- A table word of 16 bits with one set above bit 8 is no command word. -/
theorem decode_wordBytes_of_ge {nbits w : Nat} (h : 512 ≤ w % 2 ^ nbits)
    (h16 : w % 2 ^ nbits < 65536) : decode (wordBytes nbits w) = .error .notACommandWord := by
  simp only [wordBytes, decode, toNat_bytes_of_lt h16, cmdOfNat, if_neg (Nat.not_lt.2 h)]

/-- A table word decodes to the operation of the command word in its low 9 bits. -/
theorem decodeCmd_of_decodeTableWord {nbits w : Nat} {i : Instr}
    (h : decodeTableWord nbits w = some i) : decodeCmd (BitVec.ofNat 9 (w % 2 ^ nbits)) = i := by
  unfold decodeTableWord at h
  by_cases h16 : w % 2 ^ nbits < 65536
  · by_cases h9 : w % 2 ^ nbits < 512
    · simpa [h16, decode_wordBytes_of_lt h9] using h
    · simp [h16, decode_wordBytes_of_ge (Nat.not_lt.1 h9) h16] at h
  · simp [h16] at h

end Sys2Proof.Machine

/-! ### The obligations -/

namespace Sys2Proof.Proofs

open Sys2Proof.Machine

/-- Settles O5: presenting the word's request leaves exactly that request on the ports. -/
theorem placedWordIsFetched : Obligations.PlacedWordIsFetched := by
  intro s nbits w i h
  have hfetch : fetch (s.withFetchWord nbits w) = i := by
    rw [fetch, State.withFetchWord, State.present_cmd, decodeCmd_of_decodeTableWord h]
  exact ⟨hfetch, State.present_coeffIn .., State.present_recIn .., State.present_pending ..,
    State.present_sampled ..⟩

/-- Settles O8, by induction on the number of steps. -/
theorem everyRunContinues : Obligations.EveryRunContinues := by
  intro s n
  induction n generalizing s with
  | zero => exact ⟨s, rfl, rfl⟩
  | succ n ih =>
    obtain ⟨t, hstep, hsampled, -, -⟩ := step_observes_eval s
    obtain ⟨u, hrun, hlength⟩ := ih t
    refine ⟨u, (core_run_succ n hstep).trans hrun, ?_⟩
    rw [hlength, hsampled, List.length_append, List.length_singleton]
    omega

/-- Settles O37: loading puts the first request on the ports and the rest in the script. -/
theorem scriptedRunObservesEval : Obligations.ScriptedRunObservesEval := by
  intro s q rest
  simpa using run_script_observes_eval rest (s.load q rest) (s.load_pending q rest)

/-- Settles O38, from the machine's agreement with `hostRun`. -/
theorem builtRunObservesEval : Obligations.BuiltRunObservesEval := by
  intro s program h
  obtain ⟨t, hrun, hdone, hobs⟩ := machineRun_observes_hostRun program s h
  exact ⟨t, hrun, hdone, hobs, by rw [hobs, length_hostRun]⟩

/-- Settles O6, by the value of `cmd[8]` and the law that the fetched operation drives `eval`. -/
theorem executionDrivesEval : Obligations.ExecutionDrivesEval := by
  refine ⟨fun q => ?_, fun s => ⟨_, exec_fetch s, rfl, rfl, rfl⟩⟩
  cases h : q.cmd.getLsbD 8 with
  | false => exact eval_of_pack h
  | true => exact eval_of_unpack h

/-- Settles O7: the sample is the response just driven, and the script is empty or has a head. -/
theorem stepRunsTheDecodedOperation : Obligations.StepRunsTheDecodedOperation := by
  rintro s _ rfl
  refine ⟨s.drive (eval s.request), (eval s.request).status, exec_fetch s, rfl, ?_, ?_⟩
  · intro hnil
    rw [step_eq, State.advance_nil ((s.drive (eval s.request)).record _) hnil]
    rfl
  · intro q rest hcons
    rw [step_eq, State.advance_cons ((s.drive (eval s.request)).record _) q hcons]
    rfl

/-- Settles O9: the next state is one `drive` of the state before. -/
theorem evaluationFrame : Obligations.EvaluationFrame := by
  intro i s t h
  obtain ⟨r, hr⟩ := exec_eq_drive i s
  obtain rfl : s.drive r = t := Host.Outcome.next.inj (hr.symm.trans h)
  exact ⟨rfl, rfl, rfl, rfl, rfl, rfl, rfl⟩

end Sys2Proof.Proofs
end

section
/-! Proofs of the obligations about the record's layout and its contents (20_memory.md), over the laws of
Operands, Eval and Step. -/

namespace Sys2Proof.Machine

/-! ### Bytes, words and the high-bit plane as slices of the record bus (R34, R36, R39) -/

/-- The high-bit plane is laid out byte by byte from record byte 16 up. -/
theorem recByte_add_sixteen (r : RecBus) {m : Nat} (h : m < 4) :
    recByte r (16 + m) = (recHighBits r).extractLsb' (8 * m) 8 := by
  apply BitVec.eq_of_getLsbD_eq
  intro b hb
  rw [getLsbD_recByte, BitVec.getLsbD_extractLsb', getLsbD_recHighBits,
    show 128 + (8 * m + b) = 8 * (16 + m) + b by omega]
  simp [show 8 * m + b < 32 by omega]

/-- Four record bytes read little-endian are one 32-bit slice of the bus. -/
theorem recWordLE_eq_extractLsb' (r : RecBus) (m : Nat) :
    recWordLE r m = r.extractLsb' (32 * m) 32 := by
  rw [recWordLE, recByte, recByte, recByte, recByte,
    BitVec.extractLsb'_append_extractLsb'_eq_extractLsb' (by omega),
    BitVec.extractLsb'_append_extractLsb'_eq_extractLsb' (by omega),
    BitVec.extractLsb'_append_extractLsb'_eq_extractLsb' (by omega),
    show 8 * (4 * m) = 32 * m by omega]

/-- Byte `k` of word `m`, read little-endian, is record byte `4m+k`. -/
theorem extractLsb'_recWordLE (r : RecBus) (m : Nat) {k : Nat} (h : k < 4) :
    (recWordLE r m).extractLsb' (8 * k) 8 = recByte r (4 * m + k) := by
  apply BitVec.eq_of_getLsbD_eq
  intro b hb
  rw [recWordLE_eq_extractLsb', BitVec.getLsbD_extractLsb', BitVec.getLsbD_extractLsb',
    getLsbD_recByte,
    show 32 * m + (8 * k + b) = 8 * (4 * m + k) + b by omega]
  simp [show 8 * k + b < 32 by omega]

/-- Bit `i` of the packed high-bit plane is the high bit of coefficient `i`. -/
theorem getLsbD_recHighBits_packRecord (c : CoeffBus) {i : Nat} (h : i < 32) :
    (recHighBits (packRecord c)).getLsbD i = highBit (lane c i) := by
  rw [recHighBits_packRecord, packHighBits, getLsbD_gatherBits, decide_eq_true h, Bool.true_and]

/-- Bit `b` of record byte `16+m` is the high bit of coefficient `8m+b` of the packed block. -/
theorem getLsbD_recByte_packRecord_high (c : CoeffBus) {m b : Nat} (hm : m < 4) (hb : b < 8) :
    (recByte (packRecord c) (16 + m)).getLsbD b = highBit (lane c (8 * m + b)) := by
  rw [recByte_add_sixteen _ hm, BitVec.getLsbD_extractLsb', decide_eq_true hb, Bool.true_and,
    getLsbD_recHighBits_packRecord c (by omega)]

/-! ### The record and the block are two views of the same bits (R33) -/

/-- An in-range coefficient is determined by its low nibble and its high bit. -/
theorem coeff_ext {a b : Byte} (ha : a ≤ 31#8) (hb : b ≤ 31#8)
    (hlow : lowNibble a = lowNibble b) (hhigh : highBit a = highBit b) : a = b := by
  refine nibbles_ext hlow (BitVec.eq_of_getLsbD_eq fun n hn => ?_)
  rw [getLsbD_highNibble, getLsbD_highNibble]
  cases n with
  | zero => simpa [highBit] using hhigh
  | succ n => rw [getLsbD_of_le_31 ha (by omega), getLsbD_of_le_31 hb (by omega)]

/-- Coefficients 0 to 15 take the low nibble of their record byte. -/
theorem lowNibble_unpackLane (r : RecBus) {j : Nat} (h : j < 16) :
    lowNibble (unpackLane r j) = lowNibble (recByte r j) := by
  apply BitVec.eq_of_getLsbD_eq
  intro n hn
  simp only [getLsbD_lowNibble, getLsbD_unpackLane r (show j < 32 by omega), getLsbD_recByte, hn, h,
    show n < 8 by omega, if_true, decide_true, Bool.true_and]

/-- Coefficients 16 to 31 take the high nibble of theirs. -/
theorem lowNibble_unpackLane_add_sixteen (r : RecBus) {j : Nat} (h : j < 16) :
    lowNibble (unpackLane r (j + 16)) = highNibble (recByte r j) := by
  apply BitVec.eq_of_getLsbD_eq
  intro n hn
  simp only [getLsbD_lowNibble, getLsbD_unpackLane r (show j + 16 < 32 by omega),
    getLsbD_highNibble, getLsbD_recByte, hn, show ¬ j + 16 < 16 by omega, show 4 + n < 8 by omega,
    if_true, if_false, decide_true, Bool.true_and, Nat.add_sub_cancel, Nat.add_assoc]

/-- The high bit of coefficient `j` comes from the high-bit plane. -/
theorem highBit_unpackLane (r : RecBus) {j : Nat} (h : j < 32) :
    highBit (unpackLane r j) = (recHighBits r).getLsbD j := by
  rw [highBit, getLsbD_unpackLane r h, getLsbD_recHighBits, decide_eq_true h]
  rfl

/-- PACK's datapath after UNPACK's gives back the record, nibble by nibble and high bit by high bit. -/
theorem packRecord_unpack (r : RecBus) : packRecord (unpack r).coeffOut = r := by
  refine record_ext_parts (fun k hk => ?_) (BitVec.eq_of_getLsbD_eq fun i hi => ?_)
  · rw [recByte_packRecord _ hk, packByte, lane_unpack r (show k + 16 < 32 by omega),
      lane_unpack r (show k < 32 by omega), lowNibble_unpackLane_add_sixteen r hk,
      lowNibble_unpackLane r hk]
    exact nibbles_ext (lowNibble_append _ _) (highNibble_append _ _)
  · rw [getLsbD_recHighBits_packRecord _ hi, lane_unpack r hi, highBit_unpackLane r hi]

/-- UNPACK's datapath after PACK's gives back the block, where every lane is in range. -/
theorem unpack_packRecord {c : CoeffBus} (h : ∀ i < 32, lane c i ≤ 31#8) :
    (unpack (packRecord c)).coeffOut = c := by
  refine coeffBus_ext fun j hj => ?_
  rw [lane_unpack _ hj]
  refine coeff_ext (unpackLane_le _ hj) (h j hj) ?_ ?_
  · by_cases h16 : j < 16
    · rw [lowNibble_unpackLane _ h16, recByte_packRecord c h16, packByte, lowNibble_append]
    · obtain ⟨k, rfl⟩ := Nat.exists_eq_add_of_le' (Nat.le_of_not_lt h16)
      have hk : k < 16 := by omega
      rw [lowNibble_unpackLane_add_sixteen _ hk, recByte_packRecord c hk, packByte,
        highNibble_append]
  · rw [highBit_unpackLane _ hj, getLsbD_recHighBits_packRecord c hj]

/-- Every lane an UNPACK drives passes the range check of PACK. -/
theorem lane_unpack_le (r : RecBus) {j : Nat} (h : j < 32) :
    lane (unpack r).coeffOut j ≤ 31#8 := by
  rw [lane_unpack r h]
  exact unpackLane_le r h

/-! ### Evaluating the held request again (R43) -/

/-- With no script left, a step drives and records the response of the request it keeps. -/
theorem step_of_no_script {s : State} (h : s.pending = []) :
    step s = .next ((s.drive (eval s.request)).record (eval s.request)) := by
  rw [step_eq, State.advance_nil ((s.drive (eval s.request)).record _) h]

/-- Driving a response that stands on the ports already changes nothing, whatever was recorded. -/
theorem State.drive_record_drive (s : State) (r p : Response) :
    ((s.drive r).record p).drive r = (s.drive r).record p := rfl

end Sys2Proof.Machine

/-! ### The obligations -/

namespace Sys2Proof.Proofs

open Sys2Proof.Machine

/-- Settles O21: record bytes 16 to 19 are slices of the high-bit plane, which PACK gathers. -/
theorem highBitsAreLittleEndian : Obligations.HighBitsAreLittleEndian := by
  refine ⟨fun r m hm => recByte_add_sixteen r hm, fun r i hi => ?_, fun s h => ?_⟩
  · rw [getLsbD_recHighBits, decide_eq_true hi, Bool.true_and]
  · exact ⟨_, exec_pack_of_valid h,
      fun m hm b hb => getLsbD_recByte_packRecord_high s.coeffIn hm hb⟩

/-- Settles O22: a little-endian word is a slice of the bus; the record with bus bit 128 alone set reads
1 little-endian and 2^24 big-endian. -/
theorem mixedWidthViews : Obligations.MixedWidthViews :=
  ⟨fun r => recWordLE_eq_extractLsb' r 4, fun r m _ k hk => extractLsb'_recWordLE r m hk,
    1#160 <<< 128, by decide⟩

/-- Settles O30: the block is what UNPACK gives of the record, and a valid block is determined by its
record since UNPACK gives it back. -/
theorem everyRecordHasOneBlock : Obligations.EveryRecordHasOneBlock := by
  intro r
  refine ⟨(unpack r).coeffOut, ⟨fun i hi => lane_unpack_le r hi, ?_⟩, ?_⟩
  · intro s hs
    have hvalid : ∀ i < 32, lane s.coeffIn i ≤ 31#8 := fun i hi => hs ▸ lane_unpack_le r hi
    refine ⟨_, exec_pack_of_valid hvalid, rfl, ?_⟩
    rw [State.drive_recOut, hs, packRecord_unpack]
  · rintro c ⟨hvalid, hpack⟩
    obtain ⟨t, hexec, -, hrec⟩ := hpack { State.reset with coeffIn := c } rfl
    obtain rfl := Host.Outcome.next.inj ((exec_pack_of_valid hvalid).symm.trans hexec)
    have hr : packRecord c = r := hrec
    exact hr ▸ (unpack_packRecord hvalid).symm

/-- Settles O39: each state's step samples `eval` of its own request, and the requests are the same. -/
theorem responseIgnoresHistory : Obligations.ResponseIgnoresHistory := by
  intro s u hcmd hcoeff hrec
  obtain ⟨t, hs, hsampled, -, -⟩ := step_observes_eval s
  obtain ⟨v, hu, husampled, -, -⟩ := step_observes_eval u
  have hreq : u.request = s.request := by simp only [State.request, hcmd, hcoeff, hrec]
  exact ⟨t, v, eval s.request, hs, hu, hsampled, hreq ▸ husampled, rfl⟩

/-- Settles O40: the second step drives the response that stands on the ports already. -/
theorem sameRequestSameResponse : Obligations.SameRequestSameResponse := by
  intro s h
  refine ⟨_, eval s.request, step_of_no_script h, rfl, ?_⟩
  rw [step_of_no_script (s := (s.drive (eval s.request)).record (eval s.request)) h,
    State.record_request, State.drive_request, State.drive_record_drive]
  simp [State.record]

end Sys2Proof.Proofs
end

section
/-! Proofs of the obligations about the encoding (30_encoding.md): command words and their bytes, the
host's encodings of a source block and of a record, and assembler lines. Over the laws of Decode,
Operands, Eval and Step. -/

namespace Sys2Proof

/-! ### Command words (R51, R53, R64) -/

theorem decodeCmd_of_op_false {c : Cmd} (h : cmdOp c = false) : decodeCmd c = .pack (cmdLen c) := by
  simp [decodeCmd, h]

theorem decodeCmd_of_op_true {c : Cmd} (h : cmdOp c = true) : decodeCmd c = .unpack (cmdLen c) := by
  simp [decodeCmd, h]

@[simp] theorem decodeCmd_encode (i : Instr) : decodeCmd (encode i) = i := by
  cases i with
  | pack len => rw [decodeCmd_of_op_false (cmdOp_encode_pack len), cmdLen_encode_pack]
  | unpack len => rw [decodeCmd_of_op_true (cmdOp_encode_unpack len), cmdLen_encode_unpack]

@[simp] theorem encode_decodeCmd (c : Cmd) : encode (decodeCmd c) = c := by
  cases h : cmdOp c with
  | false =>
    rw [decodeCmd_of_op_false h]
    exact cmd_ext ((cmdOp_encode_pack _).trans h.symm) (cmdLen_encode_pack _)
  | true =>
    rw [decodeCmd_of_op_true h]
    exact cmd_ext ((cmdOp_encode_unpack _).trans h.symm) (cmdLen_encode_unpack _)

theorem decodeCmd_eq_iff {c : Cmd} {i : Instr} : decodeCmd c = i ↔ c = encode i :=
  ⟨fun h => by rw [← h, encode_decodeCmd], fun h => by rw [h, decodeCmd_encode]⟩

theorem toNat_encode_pack (len : Len) : (encode (.pack len)).toNat = len.toNat :=
  (BitVec.toNat_append 0#1 len).trans (by simp)

/-! ### The byte form of a command word (log entry 7) -/

theorem cmdOfNat_eq_some_iff {n : Nat} {c : Cmd} : cmdOfNat n = some c ↔ n = c.toNat := by
  unfold cmdOfNat
  by_cases h : n < 512
  · simp only [if_pos h, Option.some.injEq, BitVec.toNat_eq, BitVec.toNat_ofNat]
    omega
  · have := c.isLt
    simp only [if_neg h, reduceCtorEq, false_iff]
    omega

theorem cmdOfNat_eq_none_iff {n : Nat} : cmdOfNat n = none ↔ 512 ≤ n := by
  simp [cmdOfNat]

/-- Two bytes spell a command word exactly when they are its low byte and its bit 8. -/
theorem bytes_toNat_eq_iff {lo hi : Byte} {c : Cmd} : lo.toNat + 256 * hi.toNat = c.toNat ↔
    lo = c.extractLsb' 0 8 ∧ hi = (c.extractLsb' 8 1).setWidth 8 := by
  simp only [BitVec.toNat_eq, BitVec.extractLsb'_toNat, BitVec.toNat_setWidth,
    Nat.shiftRight_eq_div_pow]
  omega

/-- Two bytes or more decode to an instruction exactly when the first two spell its command word. -/
theorem decode_cons_cons_eq_ok_iff {lo hi : Byte} {tail rest : List Byte} {i : Instr} :
    decode (lo :: hi :: tail) = .ok (i, rest) ↔
      lo.toNat + 256 * hi.toNat = (encode i).toNat ∧ tail = rest := by
  rw [← cmdOfNat_eq_some_iff, decode]
  cases cmdOfNat (lo.toNat + 256 * hi.toNat) with
  | none => simp
  | some c => simp [decodeCmd_eq_iff]

/-- The decoder reads an instruction exactly from its encoding followed by what is left. -/
theorem decode_eq_ok_iff {bs rest : List Byte} {i : Instr} :
    decode bs = .ok (i, rest) ↔ bs = encodeBytes i ++ rest := by
  match bs with
  | [] => simp [decode, encodeBytes]
  | [_] => simp [decode, encodeBytes]
  | lo :: hi :: tail =>
    rw [decode_cons_cons_eq_ok_iff, bytes_toNat_eq_iff]
    simp [encodeBytes, and_assoc]

theorem decode_eq_truncated_iff (bs : List Byte) : decode bs = .error .truncated ↔ bs.length < 2 := by
  match bs with
  | [] => simp [decode]
  | [_] => simp [decode]
  | lo :: hi :: tail =>
    rw [decode]
    cases cmdOfNat (lo.toNat + 256 * hi.toNat) <;> simp

theorem decode_cons_cons_eq_notACommandWord_iff (lo hi : Byte) (tail : List Byte) :
    decode (lo :: hi :: tail) = .error .notACommandWord ↔ 2#8 ≤ hi := by
  have hbytes : cmdOfNat (lo.toNat + 256 * hi.toNat) = none ↔ 2#8 ≤ hi := by
    rw [cmdOfNat_eq_none_iff, BitVec.le_def, BitVec.toNat_ofNat]
    omega
  rw [← hbytes, decode]
  cases cmdOfNat (lo.toNat + 256 * hi.toNat) <;> simp

/-! ### Well-formed assembler lines (R66) -/

theorem fitBytes_iff (l : List Nat) : fitBytes l = true ↔ ∀ n ∈ l, n ≤ 255 := by
  simp [fitBytes]

theorem Line.wellFormed_pack_iff (len : Nat) (lanes : List Nat) :
    (Line.pack len lanes).wellFormed = true ↔
      len ≤ 255 ∧ lanes.length = 32 ∧ ∀ n ∈ lanes, n ≤ 255 := by
  simp [Line.wellFormed, fitBytes_iff, and_assoc]

theorem Line.wellFormed_unpack_iff (bytes : List Nat) :
    (Line.unpack bytes).wellFormed = true ↔ bytes.length = 20 ∧ ∀ n ∈ bytes, n ≤ 255 := by
  simp [Line.wellFormed, fitBytes_iff]

end Sys2Proof

namespace Sys2Proof.Machine

/-! ### What an executed instruction drives (R64, R65) -/

theorem exec_pack_eq_drive (len : Len) (s : State) :
    exec (.pack len) s = .next (s.drive (pack len s.coeffIn)) := rfl

theorem exec_unpack_eq_drive (ignored : Len) (s : State) :
    exec (.unpack ignored) s = .next (s.drive (unpack s.recIn)) := rfl

/-! ### The host's length and element encodings (R59, R60) -/

theorem toNat_encLen (n : Nat) : (encLen n).toNat = min n 255 := by
  unfold encLen
  split
  · rw [BitVec.toNat_ofNat]; omega
  · rw [BitVec.toNat_ofNat]; omega

theorem encLen_eq_32_iff (n : Nat) : encLen n = 32#8 ↔ n = 32 := by
  rw [BitVec.toNat_eq, toNat_encLen, BitVec.toNat_ofNat]
  omega

theorem toNat_encElem_of_fits {v : Int} (h : 0 ≤ v ∧ v ≤ 255) : ((encElem v).toNat : Int) = v := by
  rw [encElem, if_pos h, BitVec.toNat_ofNat]
  omega

theorem encElem_of_not_fits {v : Int} (h : ¬(0 ≤ v ∧ v ≤ 255)) : encElem v = 255#8 := if_neg h

/-- The encoding moves no element into or out of the range 0 to 31. -/
theorem encElem_le_31_iff (v : Int) : encElem v ≤ 31#8 ↔ 0 ≤ v ∧ v ≤ 31 := by
  by_cases h : 0 ≤ v ∧ v ≤ 255
  · have := toNat_encElem_of_fits h
    rw [BitVec.le_def, BitVec.toNat_ofNat]
    omega
  · rw [encElem_of_not_fits h]
    simp only [show ¬ (255#8 ≤ 31#8) by decide, false_iff]
    omega

theorem encLane_of_lt {vs : List Int} {i : Nat} (h : i < vs.length) :
    encLane vs i = encElem vs[i] := by
  simp [encLane, h]

theorem encLane_of_ge {vs : List Int} {i : Nat} (h : vs.length ≤ i) : encLane vs i = 0#8 := by
  simp [encLane, h]

/-- Elements from 32 on reach no lane. -/
theorem encLane_take (vs : List Int) {i : Nat} (h : i < 32) :
    encLane (vs.take 32) i = encLane vs i := by
  simp [encLane, h]

/-! ### The request of a PACKL line (R68) -/

@[simp] theorem packlRequest_cmd (vs : List Int) :
    (packlRequest vs).cmd = encode (.pack (encLen vs.length)) := rfl

@[simp] theorem packlRequest_recIn (vs : List Int) : (packlRequest vs).recIn = 0#160 := rfl

theorem lane_packlRequest (vs : List Int) {i : Nat} (h : i < 32) :
    lane (packlRequest vs).coeffIn i = encLane vs i := lane_coeffBusOf _ h

theorem lane_packlRequest_of_lt {vs : List Int} {i : Nat} (h : i < vs.length) (hi : i < 32) :
    lane (packlRequest vs).coeffIn i = encElem vs[i] :=
  (lane_packlRequest vs hi).trans (encLane_of_lt h)

theorem lane_packlRequest_of_ge {vs : List Int} {i : Nat} (h : vs.length ≤ i) (hi : i < 32) :
    lane (packlRequest vs).coeffIn i = 0#8 :=
  (lane_packlRequest vs hi).trans (encLane_of_ge h)

theorem packlRequest_coeffIn_eq_of_take_eq {vs ws : List Int} (h : vs.take 32 = ws.take 32) :
    (packlRequest vs).coeffIn = (packlRequest ws).coeffIn := by
  refine coeffBus_ext fun i hi => ?_
  rw [lane_packlRequest vs hi, lane_packlRequest ws hi, ← encLane_take vs hi, h,
    encLane_take ws hi]

theorem eval_packlRequest (vs : List Int) :
    eval (packlRequest vs) = pack (encLen vs.length) (packlRequest vs).coeffIn := by
  rw [eval_of_pack (by simp), packlRequest_cmd, cmdLen_encode_pack]

/-- On a block of 32 elements the block's range check gives the source's verdict. -/
theorem rangeOk_packlRequest_iff {vs : List Int} (h : vs.length = 32) :
    rangeOk (packlRequest vs).coeffIn = true ↔ ∀ v ∈ vs, 0 ≤ v ∧ v ≤ 31 := by
  rw [rangeOk_iff, List.forall_mem_iff_forall_getElem, ← h]
  refine forall₂_congr fun i hi => ?_
  rw [lane_packlRequest_of_lt hi (h ▸ hi), encElem_le_31_iff]

/-- The three outcomes of a PACKL request, in the source's order: length, range, OK. -/
theorem packlRequest_status (vs : List Int) : (eval (packlRequest vs)).status =
    if vs.length ≠ 32 then .invalidLength
    else if ∃ v ∈ vs, ¬(0 ≤ v ∧ v ≤ 31) then .outOfRange
    else .ok := by
  rw [eval_packlRequest, pack_status]
  by_cases hlen : vs.length = 32
  · have hrange := rangeOk_packlRequest_iff hlen
    rw [if_neg (not_not_intro hlen), (encLen_eq_32_iff _).2 hlen]
    split
    next hbad =>
      obtain ⟨v, hv, hout⟩ := hbad
      exact packStatus_of_range (Bool.eq_false_iff.2 fun hok => hout (hrange.1 hok v hv))
    next hgood => exact packStatus_of_valid (hrange.2 (by simpa using hgood))
  · rw [if_pos hlen, packStatus_of_length _ (mt (encLen_eq_32_iff _).1 hlen)]

/-! ### The host's record encodings (R61) -/

theorem recByte_encRecordBytes (b : Vector Byte 20) {k : Nat} (h : k < 20) :
    recByte (encRecordBytes b) k = b[k] := by
  rw [encRecordBytes, recByte_recordOfBytes _ h]
  simp [h]

/-- The last four of the 20 bytes, read little-endian, are the high-bit plane. -/
theorem recHighBits_encRecordBytes (b : Vector Byte 20) :
    recHighBits (encRecordBytes b) = b[19] ++ b[18] ++ b[17] ++ b[16] := by
  rw [recHighBits, ← recWordLE_eq_extractLsb' _ 4, recWordLE, recByte_encRecordBytes b (by omega),
    recByte_encRecordBytes b (by omega), recByte_encRecordBytes b (by omega),
    recByte_encRecordBytes b (by omega)]

/-! ### Assembler lines (R66 to R68) -/

theorem assemble_isSome (l : Line) : (assemble l).isSome = l.wellFormed := by
  unfold assemble
  cases l.wellFormed with
  | false => rfl
  | true => cases l <;> rfl

theorem assemble_pack_eq_some_iff {len : Nat} {lanes : List Nat} {q : Request} :
    assemble (.pack len lanes) = some q ↔ (Line.pack len lanes).wellFormed = true ∧
      q = ⟨encode (.pack (BitVec.ofNat 8 len)), coeffBusOf (byteAt lanes), 0#160⟩ := by
  rw [assemble]
  cases (Line.pack len lanes).wellFormed <;> simp [eq_comm]

theorem assemble_unpack_eq_some_iff {bytes : List Nat} {q : Request} :
    assemble (.unpack bytes) = some q ↔ (Line.unpack bytes).wellFormed = true ∧
      q = unpackRequest (recordOfBytes (byteAt bytes)) := by
  rw [assemble]
  cases (Line.unpack bytes).wellFormed <;> simp [eq_comm, unpackRequest]

theorem assemble_packl (vs : List Int) : assemble (.packl vs) = some (packlRequest vs) := rfl

/-- A number of a list that fits in bytes is presented as it is. -/
theorem toNat_byteAt {l : List Nat} (hfit : ∀ n ∈ l, n ≤ 255) {i : Nat} (h : i < l.length) :
    (byteAt l i).toNat = l[i] := by
  have := hfit l[i] (List.getElem_mem h)
  rw [byteAt, List.getD_eq_getElem l 0 h, BitVec.toNat_ofNat]
  omega

end Sys2Proof.Machine

/-! ### The obligations -/

namespace Sys2Proof.Proofs

open Sys2Proof.Machine

/-- Settles O3: a command word is the encoding of one instruction, and the decoder reads exactly the
encoding followed by what is left. -/
theorem decodeEncodeAgree : Obligations.DecodeEncodeAgree :=
  ⟨fun i _ => decodeCmd_encode i, encode_decodeCmd, fun _ _ _ => decode_eq_ok_iff.2 rfl,
    fun _ _ _ h => decode_eq_ok_iff.1 h⟩

/-- Settles O33, from the encoding of one element and from what each lane of a PACKL request carries. -/
theorem hostElementEncoding : Obligations.HostElementEncoding := by
  refine ⟨fun v => ⟨toNat_encElem_of_fits, fun h => ?_, encElem_le_31_iff v⟩,
    fun _ _ => lane_packlRequest_of_lt, fun _ _ => lane_packlRequest_of_ge,
    fun _ _ => packlRequest_coeffIn_eq_of_take_eq⟩
  rw [encElem_of_not_fits h]
  rfl

/-- Settles O34: the step samples `eval` of the PACKL request, whose status is the source's verdict. -/
theorem packlReportsTheSourceVerdict : Obligations.PacklReportsTheSourceVerdict := by
  intro s vs _
  obtain ⟨t, hstep, hsampled, -, -⟩ := step_observes_eval (s.present (packlRequest vs))
  rw [State.present_sampled, State.present_request] at hsampled
  exact ⟨t, eval (packlRequest vs), hstep, hsampled, packlRequest_status vs⟩

/-- Settles O35: the two bus values have the same 16 low-nibble bytes and the same high-bit plane. -/
theorem recordEncodingsAgree : Obligations.RecordEncodingsAgree := by
  intro b
  refine ⟨record_ext_parts (fun k hk => ?_) ?_, fun k hk => recByte_encRecordBytes b hk⟩
  · rw [encRecord, recByte_recordOf _ _ hk, recByte_encRecordBytes b (by omega)]
    simp [hk]
  · rw [encRecord, recHighBits_recordOf, recHighBits_encRecordBytes]

/-- Settles O36, each kind of line from the one request it assembles to; a line assembles exactly when it
is well formed. -/
theorem assembledLineOnThePorts : Obligations.AssembledLineOnThePorts := by
  refine ⟨fun len lanes q h => ?_, fun bytes q h => ?_, fun vs => ?_, fun len lanes => ?_,
    fun bytes => ?_, fun l => (assemble_isSome l).symm⟩
  · obtain ⟨hwf, rfl⟩ := assemble_pack_eq_some_iff.1 h
    obtain ⟨hlen, hcount, hfit⟩ := (Line.wellFormed_pack_iff len lanes).1 hwf
    refine ⟨?_, hcount, rfl, fun i hi => ?_⟩
    · rw [toNat_encode_pack, BitVec.toNat_ofNat]; omega
    · rw [lane_coeffBusOf _ (hcount ▸ hi), toNat_byteAt hfit hi]
  · obtain ⟨hwf, rfl⟩ := assemble_unpack_eq_some_iff.1 h
    obtain ⟨hcount, hfit⟩ := (Line.wellFormed_unpack_iff bytes).1 hwf
    refine ⟨rfl, hcount, rfl, fun k hk => ?_⟩
    rw [unpackRequest, recByte_recordOfBytes _ (hcount ▸ hk), toNat_byteAt hfit hk]
  · refine ⟨packlRequest vs, assemble_packl vs, cmdOp_encode_pack _, ?_, rfl,
      fun _ => lane_packlRequest_of_lt, fun _ hi h => lane_packlRequest_of_ge h hi⟩
    exact (congrArg BitVec.toNat (cmdLen_encode_pack _)).trans (toNat_encLen vs.length)
  · rw [assemble_isSome, Line.wellFormed_pack_iff]
  · rw [assemble_isSome, Line.wellFormed_unpack_iff]

/-- Settles O1, by the two branches of the decoder. -/
theorem bitEightSelectsTheOperation : Obligations.BitEightSelectsTheOperation :=
  fun _ => ⟨decodeCmd_of_op_false, decodeCmd_of_op_true⟩

/-- Settles O2: the bytes are the encodings of these instructions, and the table words are laid out as
such bytes. -/
theorem specCommandWordsDecode : Obligations.SpecCommandWordsDecode :=
  ⟨decode_eq_ok_iff.2 rfl, decode_eq_ok_iff.2 rfl, decode_eq_ok_iff.2 rfl, decode_eq_ok_iff.2 rfl,
    by decide, by decide⟩

/-- Settles O4, from the two ways the decoder can fail. -/
theorem onlyNonCommandBytesAreRefused : Obligations.OnlyNonCommandBytesAreRefused :=
  ⟨decode_eq_truncated_iff, decode_cons_cons_eq_notACommandWord_iff⟩

/-- Settles O27: the response PACK drives is a function of `len` and `coeff_in`, the one UNPACK drives a
function of `rec_in`. -/
theorem ignoredInputs : Obligations.IgnoredInputs := by
  constructor
  · intro s u len h
    refine ⟨_, _, exec_pack_eq_drive len s, exec_pack_eq_drive len u, ?_⟩
    simp [h]
  · intro s u x y h
    refine ⟨_, _, exec_unpack_eq_drive x s, exec_unpack_eq_drive y u, ?_⟩
    simp [h]

/-- Settles O32: the encoded length is the smaller of the length and 255. -/
theorem hostLengthEncoding : Obligations.HostLengthEncoding := by
  intro n
  rw [toNat_encLen]
  exact ⟨fun h => min_eq_left h, fun h => min_eq_right h.le, encLen_eq_32_iff n⟩

end Sys2Proof.Proofs
end

section
/-! Proofs of the obligations about PACK (40_pack.md): where each bit of a coefficient stands in the
record, the source's two passes, and the outputs PACK does not use. Over the laws of Operands, Eval and
Step. -/

namespace Sys2Proof.Machine

/-! ### A part placed on the record bus -/

/-- A vector placed at bus position `m` reaches the positions from `m` on. -/
theorem getLsbD_placed {w : Nat} (v : BitVec w) (m : Nat) {n : Nat} (hn : n < 160) :
    (v.setWidth 160 <<< m).getLsbD n = (decide (m ≤ n) && v.getLsbD (n - m)) := by
  rw [BitVec.getLsbD_shiftLeft, BitVec.getLsbD_setWidth, decide_eq_true hn, Bool.true_and,
    decide_eq_true (by omega : n - m < 160), Bool.true_and, ← decide_not,
    decide_eq_decide.2 Nat.not_lt]

/-- A single bit placed at bus position `m` reaches that position. -/
theorem getLsbD_placedBit (x : Bool) (m : Nat) {n : Nat} (hn : n < 160) :
    ((BitVec.ofBool x).setWidth 160 <<< m).getLsbD n = (decide (n = m) && x) := by
  rw [getLsbD_placed _ _ hn, BitVec.getLsbD_ofBool, ← Bool.and_assoc, ← Bool.decide_and,
    decide_eq_decide.2 (show m ≤ n ∧ n - m = 0 ↔ n = m by omega)]

/-! ### Where the record holds each coefficient (R70, R71) -/

/-- The bus position of the nibble of coefficient `i`: record byte `i mod 16`, low half for `i < 16`. -/
def nibblePos (i : Nat) : Nat := 8 * (i % 16) + if i < 16 then 0 else 4

theorem nibblePos_of_lt {i : Nat} (h : i < 16) : nibblePos i = 8 * i := by
  rw [nibblePos, if_pos h, Nat.mod_eq_of_lt h, Nat.add_zero]

theorem nibblePos_of_ge {i : Nat} (h : 16 ≤ i) (hi : i < 32) : nibblePos i = 8 * (i - 16) + 4 := by
  rw [nibblePos, if_neg (by omega), show i % 16 = i - 16 by omega]

theorem nibblePos_le (i : Nat) : nibblePos i ≤ 124 := by
  unfold nibblePos
  split <;> omega

/-- The nibbles of two coefficients do not overlap. -/
theorem nibblePos_disjoint {i j : Nat} (hi : i < 32) (hj : j < 32) (h : i ≠ j) :
    nibblePos i + 4 ≤ nibblePos j ∨ nibblePos j + 4 ≤ nibblePos i := by
  unfold nibblePos
  split <;> split <;> omega

/-- Every record bit is a bit of some coefficient's nibble or the high bit of some coefficient. -/
theorem recordBit_cases {n : Nat} (h : n < 160) :
    (∃ i < 32, ∃ b < 4, n = nibblePos i + b) ∨ ∃ i < 32, n = 128 + i := by
  by_cases h128 : n < 128
  · by_cases h4 : n % 8 < 4
    · refine .inl ⟨n / 8, by omega, n % 8, h4, ?_⟩
      rw [nibblePos_of_lt (by omega)]
      omega
    · refine .inl ⟨n / 8 + 16, by omega, n % 8 - 4, by omega, ?_⟩
      rw [nibblePos_of_ge (by omega) (by omega)]
      omega
  · exact .inr ⟨n - 128, by omega, by omega⟩

theorem getLsbD_packRecord_nibble (c : CoeffBus) {i b : Nat} (hi : i < 32) (hb : b < 4) :
    (packRecord c).getLsbD (nibblePos i + b) = (lane c i).getLsbD b := by
  have := nibblePos_le i
  rw [getLsbD_packRecord, if_pos (by omega), getLsbD_lane, decide_eq_true (by omega : b < 8),
    Bool.true_and]
  by_cases h : i < 16
  · rw [nibblePos_of_lt h, if_pos (by omega), Nat.div_add_mod]
  · rw [nibblePos_of_ge (by omega) hi, if_neg (by omega)]
    congr 1
    omega

theorem extractLsb'_packRecord_nibble (c : CoeffBus) {i : Nat} (hi : i < 32) :
    (packRecord c).extractLsb' (nibblePos i) 4 = lowNibble (lane c i) := by
  apply BitVec.eq_of_getLsbD_eq
  intro b hb
  rw [BitVec.getLsbD_extractLsb', getLsbD_packRecord_nibble c hi hb, getLsbD_lowNibble]

theorem getLsbD_packRecord_high (c : CoeffBus) {i : Nat} (hi : i < 32) :
    (packRecord c).getLsbD (128 + i) = highBit (lane c i) := by
  rw [← getLsbD_recHighBits_packRecord c hi, getLsbD_recHighBits, decide_eq_true hi, Bool.true_and]

/-! ### Blocks that differ in one coefficient (R75) -/

/-- The records differ exactly where the coefficient's own bits stand and differ. -/
theorem getLsbD_packRecord_ne_iff {c d : CoeffBus} {i n : Nat} (hi : i < 32)
    (hsame : ∀ k < 32, k ≠ i → lane c k = lane d k) (hn : n < 160) :
    (packRecord c).getLsbD n ≠ (packRecord d).getLsbD n ↔
      (∃ b < 4, n = nibblePos i + b ∧ (lane c i).getLsbD b ≠ (lane d i).getLsbD b) ∨
        (n = 128 + i ∧ highBit (lane c i) ≠ highBit (lane d i)) := by
  constructor
  · intro hne
    obtain ⟨j, hj, b, hb, rfl⟩ | ⟨j, hj, rfl⟩ := recordBit_cases hn
    · rw [getLsbD_packRecord_nibble c hj hb, getLsbD_packRecord_nibble d hj hb] at hne
      obtain rfl : j = i := by_contra fun h => hne (by rw [hsame j hj h])
      exact .inl ⟨b, hb, rfl, hne⟩
    · rw [getLsbD_packRecord_high c hj, getLsbD_packRecord_high d hj] at hne
      obtain rfl : j = i := by_contra fun h => hne (by rw [hsame j hj h])
      exact .inr ⟨rfl, hne⟩
  · rintro (⟨b, hb, rfl, hne⟩ | ⟨rfl, hne⟩)
    · rwa [getLsbD_packRecord_nibble c hi hb, getLsbD_packRecord_nibble d hi hb]
    · rwa [getLsbD_packRecord_high c hi, getLsbD_packRecord_high d hi]

/-! ### Blocks with one nonzero coefficient (R76) -/

/-- The record of a block whose other coefficients are 0: the coefficient's nibble and its high bit. -/
theorem packRecord_of_single_lane {c : CoeffBus} {p : Nat} (hp : p < 32)
    (hzero : ∀ k < 32, k ≠ p → lane c k = 0#8) :
    packRecord c = (lowNibble (lane c p)).setWidth 160 <<< nibblePos p |||
      (BitVec.ofBool (highBit (lane c p))).setWidth 160 <<< (128 + p) := by
  apply BitVec.eq_of_getLsbD_eq
  intro n hn
  have hp124 := nibblePos_le p
  rw [BitVec.getLsbD_or, getLsbD_placed _ _ hn, getLsbD_placedBit _ _ hn, getLsbD_lowNibble]
  obtain ⟨j, hj, b, hb, rfl⟩ | ⟨j, hj, rfl⟩ := recordBit_cases hn
  · have hj124 := nibblePos_le j
    rw [getLsbD_packRecord_nibble c hj hb]
    by_cases h : j = p
    · subst h
      simp [hb, show nibblePos j + b ≠ 128 + j by omega]
    · have hhigh : nibblePos j + b ≠ 128 + p := by omega
      obtain hbelow | habove := nibblePos_disjoint hj hp h
      · simp [hzero j hj h, hhigh, show ¬ nibblePos p ≤ nibblePos j + b by omega]
      · simp [hzero j hj h, hhigh, show ¬ nibblePos j + b - nibblePos p < 4 by omega]
  · have hout : ¬ 128 + j - nibblePos p < 4 := by omega
    rw [getLsbD_packRecord_high c hj]
    by_cases h : j = p
    · subst h
      simp [hout]
    · simp [hzero j hj h, h, hout, highBit]

/-- A block whose other coefficients are 0 is valid when the one coefficient is in range. -/
theorem lanes_le_of_single_lane {c : CoeffBus} {p : Nat}
    (hzero : ∀ k < 32, k ≠ p → lane c k = 0#8) (hp : lane c p ≤ 31#8) :
    ∀ k < 32, lane c k ≤ 31#8 := by
  intro k hk
  by_cases h : k = p
  · rwa [h]
  · rw [hzero k hk h]
    decide

/-! ### The source's two passes (R72) -/

/-- The piece of the two passes that writes record bit `n`. -/
def pieceOf (n : Nat) : Nat := if n < 128 then n / 8 else 16 + (n - 128) % 16

theorem pieceOf_lt {n : Nat} (h : n < 160) : pieceOf n < 32 := by
  unfold pieceOf
  split <;> omega

theorem and_0F_eq : ∀ b : Byte, b &&& 0x0F#8 = 0#4 ++ lowNibble b := by decide

theorem and_0F_shiftLeft_four_eq : ∀ b : Byte, (b &&& 0x0F#8) <<< 4 = lowNibble b ++ 0#4 := by decide

theorem setWidth_highBitMask : ∀ b : Byte,
    ((b >>> 4) &&& 1#8).setWidth 160 = (BitVec.ofBool (highBit b)).setWidth 160 := by decide

/-- A piece of the first pass writes one whole record byte. -/
theorem packPiece_of_lt (c : CoeffBus) (acc : RecBus) {k : Nat} (h : k < 16) :
    packPiece c acc k = acc ||| (packByte c k).setWidth 160 <<< (8 * k) := by
  rw [packPiece, if_pos h, and_0F_shiftLeft_four_eq, and_0F_eq, BitVec.or_append, BitVec.or_zero,
    BitVec.zero_or, packByte]

/-- A piece of the second pass writes the high bits of two coefficients. -/
theorem packPiece_of_ge (c : CoeffBus) (acc : RecBus) {k : Nat} (h : 16 ≤ k) :
    packPiece c acc k =
      acc ||| (BitVec.ofBool (highBit (lane c (k - 16)))).setWidth 160 <<< (128 + (k - 16)) |||
        (BitVec.ofBool (highBit (lane c k))).setWidth 160 <<< (128 + k) := by
  rw [packPiece, if_neg (by omega), setWidth_highBitMask, setWidth_highBitMask]

/-- A byte placed as record byte `k` reaches the bits of that byte. -/
theorem getLsbD_placedByte (v : Byte) (k : Nat) {n : Nat} (hn : n < 160) :
    (v.setWidth 160 <<< (8 * k)).getLsbD n = (decide (n / 8 = k) && v.getLsbD (n % 8)) := by
  rw [getLsbD_placed v _ hn]
  by_cases hk : n / 8 = k
  · simp [hk, show 8 * k ≤ n by omega, show n - 8 * k = n % 8 by omega]
  · by_cases hlow : 8 * k ≤ n
    · simp [hk, BitVec.getLsbD_of_ge v (n - 8 * k) (by omega)]
    · simp [hk, hlow]

/-- A piece ORs in the bits of PACK's record that are its own, and no other bit. -/
theorem getLsbD_packPiece (c : CoeffBus) (acc : RecBus) {k n : Nat} (hk : k < 32) (hn : n < 160) :
    (packPiece c acc k).getLsbD n =
      (acc.getLsbD n || (decide (pieceOf n = k) && (packRecord c).getLsbD n)) := by
  by_cases hlow : k < 16
  · rw [packPiece_of_lt c acc hlow, BitVec.getLsbD_or, getLsbD_placedByte _ _ hn]
    by_cases h128 : n < 128
    · rw [pieceOf, if_pos h128, packRecord, getLsbD_recordOf, if_pos h128]
      by_cases hown : n / 8 = k <;> simp [hown]
    · simp [pieceOf, h128, show n / 8 ≠ k by omega, show 16 + (n - 128) % 16 ≠ k by omega]
  · rw [packPiece_of_ge c acc (by omega), BitVec.getLsbD_or, BitVec.getLsbD_or,
      getLsbD_placedBit _ _ hn, getLsbD_placedBit _ _ hn, Bool.or_assoc]
    by_cases h128 : n < 128
    · simp [pieceOf, h128, show n / 8 ≠ k by omega, show n ≠ 128 + (k - 16) by omega,
        show n ≠ 128 + k by omega]
    · obtain ⟨i, rfl⟩ := Nat.exists_eq_add_of_le (Nat.le_of_not_lt h128)
      rw [getLsbD_packRecord_high c (by omega), pieceOf, if_neg h128, Nat.add_sub_cancel_left]
      by_cases hfirst : i = k - 16
      · simp [hfirst, show k - 16 ≠ k by omega, show 16 + (k - 16) % 16 = k by omega]
      · by_cases hsecond : i = k
        · simp [hsecond, show k ≠ k - 16 by omega, show 16 + k % 16 = k by omega]
        · simp [hfirst, hsecond, show 16 + i % 16 ≠ k by omega]

/-- Run in any order, the pieces OR in the bits of PACK's record that belong to a piece that ran. -/
theorem getLsbD_foldl_packPiece (c : CoeffBus) {n : Nat} (hn : n < 160) (order : List Nat)
    (acc : RecBus) (h : ∀ k ∈ order, k < 32) :
    (order.foldl (packPiece c) acc).getLsbD n =
      (acc.getLsbD n || (decide (pieceOf n ∈ order) && (packRecord c).getLsbD n)) := by
  induction order generalizing acc with
  | nil => simp
  | cons k rest ih =>
    obtain ⟨hk, hrest⟩ := List.forall_mem_cons.1 h
    rw [List.foldl_cons, ih _ hrest, getLsbD_packPiece c acc hk hn, Bool.or_assoc,
      ← Bool.and_or_distrib_right]
    simp only [List.mem_cons, Bool.decide_or]

/-- Run once each, in any order, the pieces give PACK's record. -/
theorem packInOrder_eq_packRecord (c : CoeffBus) {order : List Nat}
    (h : order.Perm (List.range 32)) : packInOrder c order = packRecord c := by
  have hmem : ∀ k, k ∈ order ↔ k < 32 := fun k => h.mem_iff.trans List.mem_range
  apply BitVec.eq_of_getLsbD_eq
  intro n hn
  rw [packInOrder, getLsbD_foldl_packPiece c hn order _ fun k => (hmem k).1,
    decide_eq_true ((hmem _).2 (pieceOf_lt hn)), BitVec.getLsbD_zero, Bool.false_or, Bool.true_and]

end Sys2Proof.Machine

/-! ### The obligations -/

namespace Sys2Proof.Proofs

open Sys2Proof.Machine

/-- Settles O10: the record's bytes are `packByte`, its nibbles and high bits those of the lanes. -/
theorem packOfValidBlock : Obligations.PackOfValidBlock := by
  intro s h
  refine ⟨_, exec_pack_of_valid h, rfl, rfl, fun j hj => recByte_packRecord _ hj,
    fun i hi => ?_, fun i hi h16 => ?_, fun i hi =>
      ⟨getLsbD_packRecord_high _ hi, getLsbD_recHighBits_packRecord _ hi⟩⟩
  · rw [← nibblePos_of_lt hi]
    exact extractLsb'_packRecord_nibble _ (by omega)
  · rw [← nibblePos_of_ge h16 hi]
    exact extractLsb'_packRecord_nibble _ hi

/-- Settles O19: of the two ways the records can differ, each clause's hypothesis leaves one. -/
theorem packBitIsolation : Obligations.PackBitIsolation := by
  intro s u i hi hs hu hsame
  refine ⟨_, _, exec_pack_of_valid hs, exec_pack_of_valid hu, fun hhigh n hn => ?_,
    fun hlow n hn => ?_⟩
  · exact (getLsbD_packRecord_ne_iff hi hsame hn).trans
      (or_iff_left fun ⟨_, hne⟩ => hne hhigh)
  · refine (getLsbD_packRecord_ne_iff hi hsame hn).trans (or_iff_right ?_)
    rintro ⟨b, hb, -, hne⟩
    have := congrArg (BitVec.getLsbD · b) hlow
    simp only [BitVec.getLsbD_extractLsb', hb, decide_true, Bool.true_and, Nat.zero_add] at this
    exact hne this

/-- Settles O20: each piece ORs in its own bits of the record, so their order does not matter. -/
theorem passesInAnyOrder : Obligations.PassesInAnyOrder :=
  fun _ _ h hperm => ⟨_, exec_pack_of_valid h, (packInOrder_eq_packRecord _ hperm).symm⟩

/-- Settles O23: the record is the lane's nibble and high bit in their places, at each of the three
values. -/
theorem packSingleLaneCorners : Obligations.PackSingleLaneCorners := by
  intro s p hp hzero
  have hexec (hle : lane s.coeffIn p ≤ 31#8) := exec_pack_of_valid (lanes_le_of_single_lane hzero hle)
  have hrecord := packRecord_of_single_lane hp hzero
  refine ⟨fun h => ⟨_, hexec (by rw [h]; decide), rfl, ?_⟩,
    fun h => ⟨_, hexec (by rw [h]; decide), rfl, ?_⟩,
    fun h => ⟨_, hexec (by rw [h]; decide), rfl, ?_⟩⟩
  · rw [State.drive_recOut, hrecord, h]
    simp [lowNibble, highBit]
  · rw [State.drive_recOut, hrecord, h]
    simp [lowNibble, highBit, nibblePos]
  · rw [State.drive_recOut, hrecord, h]
    rfl

/-- Settles O18: `coeff_out` is 0 in every response of PACK, and a status other than 0 is an error's. -/
theorem packUnusedOutputs : Obligations.PackUnusedOutputs := by
  intro s len
  refine ⟨_, exec_pack_eq_drive len s, pack_coeffOut .., fun hne => ?_⟩
  refine pack_recOut_of_error fun hok => hne ?_
  rw [State.drive_status, pack_status, hok, Status.code]

end Sys2Proof.Proofs
end

section
/-! Proofs of the obligations about UNPACK and the round trips (41_unpack.md): what each lane of an
unpacked record is, which lane bit each record bit reaches, and the source's values across both
datapaths. Over the laws of Operands, Eval and Step. -/

namespace Sys2Proof.Machine

/-! ### An unpacked lane as slices of the record bus (R77, R78) -/

/-- A slice of a slice is a slice. -/
theorem extractLsb'_extractLsb'_of_add_le {w len start sub : Nat} (x : BitVec w) (base : Nat)
    (h : start + sub ≤ len) :
    (x.extractLsb' base len).extractLsb' start sub = x.extractLsb' (base + start) sub := by
  apply BitVec.eq_of_getLsbD_eq
  intro b hb
  simp only [BitVec.getLsbD_extractLsb', hb, show start + b < len by omega, decide_true,
    Bool.true_and, Nat.add_assoc]

theorem lowNibble_recByte (r : RecBus) (k : Nat) :
    lowNibble (recByte r k) = r.extractLsb' (8 * k) 4 :=
  extractLsb'_extractLsb'_of_add_le r _ (by decide)

theorem highNibble_recByte (r : RecBus) (k : Nat) :
    highNibble (recByte r k) = r.extractLsb' (8 * k + 4) 4 :=
  extractLsb'_extractLsb'_of_add_le r _ (by decide)

theorem ofBool_getLsbD_eq_extractLsb' {w : Nat} (x : BitVec w) (i : Nat) :
    BitVec.ofBool (x.getLsbD i) = x.extractLsb' i 1 := by
  apply BitVec.eq_of_getLsbD_eq
  intro b hb
  obtain rfl : b = 0 := by omega
  simp

/-- Lane `j` is bit `j` of the high-bit plane above the nibble of coefficient `j`. -/
theorem unpackLane_eq_append (r : RecBus) (j : Nat) : unpackLane r j =
    (r.extractLsb' (128 + j) 1 ++ r.extractLsb' (nibblePos j) 4 : BitVec (1 + 4)).setWidth 8 := by
  rw [unpackLane, ofBool_getLsbD_eq_extractLsb', nibblePos]
  split
  · simp only [lowNibble_recByte, Nat.add_zero]
  · rw [highNibble_recByte]

theorem shiftRight_four_eq : ∀ b : Byte, b >>> 4 = 0#4 ++ highNibble b := by decide

/-- A bit above a nibble, zero-extended, is the nibble with the bit OR'd in at bit 4. -/
theorem setWidth_bit_append_nibble : ∀ (h : BitVec 1) (nib : Nibble),
    (h ++ nib : BitVec (1 + 4)).setWidth 8 = (0#4 ++ nib) ||| h.setWidth 8 <<< 4 := by decide

/-- Lane `j` as the source computes it, with a mask, shifts and an OR. -/
theorem unpackLane_eq_or (r : RecBus) (j : Nat) : unpackLane r j =
    (if j < 16 then recByte r (j % 16) &&& 0x0F#8 else recByte r (j % 16) >>> 4) |||
      (r.extractLsb' (128 + j) 1).setWidth 8 <<< 4 := by
  rw [unpackLane, ofBool_getLsbD_eq_extractLsb', setWidth_bit_append_nibble]
  split
  · rw [and_0F_eq]
  · rw [shiftRight_four_eq]

/-- An in-range lane carries nothing above its five bits. -/
theorem extractLsb'_five_three_of_le_31 {b : Byte} (h : b ≤ 31#8) : b.extractLsb' 5 3 = 0#3 := by
  apply BitVec.eq_of_getLsbD_eq
  intro n hn
  rw [BitVec.getLsbD_extractLsb', getLsbD_of_le_31 h (by omega), Bool.and_false,
    BitVec.getLsbD_zero]

/-! ### Which lane bit a record bit reaches (R37, R84) -/

/-- The coefficient-bus position that record bit `n` reaches. -/
def laneBitPos (n : Nat) : Nat :=
  if 128 ≤ n then 8 * (n - 128) + 4
  else if n % 8 < 4 then 8 * (n / 8) + n % 8
  else 8 * (n / 8 + 16) + (n % 8 - 4)

theorem laneBitPos_high (i : Nat) : laneBitPos (128 + i) = 8 * i + 4 := by
  rw [laneBitPos, if_pos (by omega), Nat.add_sub_cancel_left]

theorem laneBitPos_nibble {i b : Nat} (hi : i < 32) (hb : b < 4) :
    laneBitPos (nibblePos i + b) = 8 * i + b := by
  have := nibblePos_le i
  rw [laneBitPos, if_neg (by omega)]
  by_cases h : i < 16
  · rw [nibblePos_of_lt h, if_pos (by omega)]
    omega
  · rw [nibblePos_of_ge (by omega) hi, if_neg (by omega)]
    omega

/-- A coefficient bus with one bit set has one nonzero lane. -/
theorem lane_one_shiftLeft {i b : Nat} (hi : i < 32) (hb : b < 8) (k : Nat) :
    lane (1#256 <<< (8 * i + b)) k = if k = i then 1#8 <<< b else 0#8 := by
  apply BitVec.eq_of_getLsbD_eq
  intro m hm
  rw [← BitVec.twoPow_eq, ← BitVec.twoPow_eq, getLsbD_lane, BitVec.getLsbD_twoPow]
  by_cases hk : k = i
  · simpa [hk, hm, show 8 * i + b < 256 by omega] using eq_comm
  · simp [hk, show 8 * i + b ≠ 8 * k + m by omega]

/-- The block with one bit set, at a bit a coefficient has, is the unpacking of its own record. -/
theorem unpack_packRecord_one_shiftLeft {i b : Nat} (hi : i < 32) (hb : b < 5) :
    (unpack (packRecord (1#256 <<< (8 * i + b)))).coeffOut = 1#256 <<< (8 * i + b) := by
  have hone : ∀ b < 5, 1#8 <<< b ≤ 31#8 := by decide
  refine unpack_packRecord fun k _ => ?_
  rw [lane_one_shiftLeft hi (by omega)]
  split
  · exact hone b hb
  · decide

/-- The record of a block with one bit set: that bit's nibble and high bit in their places. -/
theorem packRecord_one_shiftLeft {i b : Nat} (hi : i < 32) (hb : b < 8) :
    packRecord (1#256 <<< (8 * i + b)) =
      (lowNibble (1#8 <<< b)).setWidth 160 <<< nibblePos i |||
        (BitVec.ofBool (highBit (1#8 <<< b))).setWidth 160 <<< (128 + i) := by
  have hlane := lane_one_shiftLeft hi hb
  rw [packRecord_of_single_lane hi fun k _ hk => (hlane k).trans (if_neg hk), hlane, if_pos rfl]

theorem packRecord_one_shiftLeft_nibble {i b : Nat} (hi : i < 32) (hb : b < 4) :
    packRecord (1#256 <<< (8 * i + b)) = 1#160 <<< (nibblePos i + b) := by
  have hlow : ∀ b < 4, (lowNibble (1#8 <<< b)).setWidth 160 = 1#160 <<< b := by decide
  have hhigh : ∀ b < 4, highBit (1#8 <<< b) = false := by decide
  rw [packRecord_one_shiftLeft hi (by omega), hlow b hb, hhigh b hb, ← BitVec.shiftLeft_add,
    Nat.add_comm b]
  simp

theorem packRecord_one_shiftLeft_high {i : Nat} (hi : i < 32) :
    packRecord (1#256 <<< (8 * i + 4)) = 1#160 <<< (128 + i) := by
  rw [packRecord_one_shiftLeft hi (by decide)]
  simp [lowNibble, highBit]

/-- UNPACK of a record with one bit set: the block whose one set bit packs to that record bit. -/
theorem unpack_one_shiftLeft {n : Nat} (hn : n < 160) :
    (unpack (1#160 <<< n)).coeffOut = 1#256 <<< laneBitPos n := by
  obtain ⟨i, hi, b, hb, rfl⟩ | ⟨i, hi, rfl⟩ := recordBit_cases hn
  · rw [laneBitPos_nibble hi hb, ← packRecord_one_shiftLeft_nibble hi hb,
      unpack_packRecord_one_shiftLeft hi (by omega)]
  · rw [laneBitPos_high, ← packRecord_one_shiftLeft_high hi,
      unpack_packRecord_one_shiftLeft hi (by decide)]

/-! ### The source's records and blocks on the ports (R59 to R62) -/

@[simp] theorem encRecord_decRecord (r : RecBus) : encRecord (decRecord r) = r := by
  refine record_ext_parts (fun k hk => ?_) (recHighBits_recordOf _ _)
  rw [encRecord, recByte_recordOf _ _ hk]
  simp [decRecord, hk]

@[simp] theorem decRecord_encRecord (p : PackedRecord) : decRecord (encRecord p) = p := by
  obtain ⟨low, high⟩ := p
  rw [decRecord, encRecord, recHighBits_recordOf]
  refine congrArg (PackedRecord.mk · high) (Vector.ext fun k hk => ?_)
  simp [recByte_recordOf _ _ hk, hk]

@[simp] theorem length_decBlock (c : CoeffBus) : (decBlock c).length = 32 := by simp [decBlock]

theorem getElem_decBlock (c : CoeffBus) {i : Nat} (h : i < (decBlock c).length) :
    (decBlock c)[i] = ((lane c i).toNat : Int) := by simp [decBlock]

/-- A block read off the bus is in range when its lanes are. -/
theorem decBlock_in_range {c : CoeffBus} (h : ∀ i < 32, lane c i ≤ 31#8) :
    ∀ v ∈ decBlock c, 0 ≤ v ∧ v ≤ 31 := by
  rw [List.forall_mem_iff_forall_getElem]
  intro i hi
  have hle := BitVec.le_def.1 (h i (length_decBlock c ▸ hi))
  rw [BitVec.toNat_ofNat] at hle
  rw [getElem_decBlock]
  omega

/-- Encoding the block read off a bus gives back the bus. -/
theorem packlRequest_decBlock (c : CoeffBus) : (packlRequest (decBlock c)).coeffIn = c := by
  refine coeffBus_ext fun i hi => BitVec.eq_of_toNat_eq ?_
  have hlt : i < (decBlock c).length := by rwa [length_decBlock]
  have hfits : 0 ≤ (decBlock c)[i] ∧ (decBlock c)[i] ≤ 255 := by
    have := (lane c i).isLt
    rw [getElem_decBlock]
    omega
  rw [lane_packlRequest_of_lt hlt hi, ← Int.natCast_inj, toNat_encElem_of_fits hfits,
    getElem_decBlock]

/-- Reading the encoding of a valid block off the bus gives back the block. -/
theorem decBlock_packlRequest {vs : List Int} (hlen : vs.length = 32)
    (hrange : ∀ v ∈ vs, 0 ≤ v ∧ v ≤ 31) : decBlock (packlRequest vs).coeffIn = vs := by
  refine List.ext_getElem (by rw [length_decBlock, hlen]) fun i _ hi => ?_
  obtain ⟨hlow, hhigh⟩ := hrange vs[i] (List.getElem_mem hi)
  rw [getElem_decBlock, lane_packlRequest_of_lt hi (hlen ▸ hi),
    toNat_encElem_of_fits ⟨hlow, by omega⟩]

/-! ### The source's two functions through the block (R82, R83, R93) -/

theorem packlRequest_status_eq_ok_iff (vs : List Int) : (eval (packlRequest vs)).status = .ok ↔
    vs.length = 32 ∧ ∀ v ∈ vs, 0 ≤ v ∧ v ≤ 31 := by
  rw [packlRequest_status]
  split
  next hlen => simp [hlen]
  next hlen =>
    split
    next hbad => simpa using fun _ => hbad
    next hgood => simpa [not_not.1 hlen] using hgood

theorem packlRequest_recOut {vs : List Int} (hlen : vs.length = 32)
    (hrange : ∀ v ∈ vs, 0 ≤ v ∧ v ≤ 31) :
    (eval (packlRequest vs)).recOut = packRecord (packlRequest vs).coeffIn := by
  rw [eval_packlRequest, (encLen_eq_32_iff _).2 hlen,
    pack_recOut_of_valid ((rangeOk_packlRequest_iff hlen).2 hrange)]

/-- The source's `pack` gives a record exactly for a valid block, and it is PACK's record. -/
theorem sourcePack_eq_ok_iff {vs : List Int} {p : PackedRecord} : sourcePack vs = .ok p ↔
    (vs.length = 32 ∧ ∀ v ∈ vs, 0 ≤ v ∧ v ≤ 31) ∧
      p = decRecord (packRecord (packlRequest vs).coeffIn) := by
  rw [← packlRequest_status_eq_ok_iff, sourcePack]
  split
  next hok =>
    obtain ⟨hlen, hrange⟩ := (packlRequest_status_eq_ok_iff vs).1 hok
    rw [packlRequest_recOut hlen hrange, Except.ok.injEq, eq_comm]
    exact (and_iff_right hok).symm
  next herr => exact ⟨nofun, fun ⟨hok, _⟩ => absurd hok herr⟩

theorem eval_unpackRequest (r : RecBus) : eval (unpackRequest r) = unpack r :=
  eval_of_unpack (q := unpackRequest r) (cmdOp_encode_unpack 0#8)

theorem sourceUnpack_eq (p : PackedRecord) :
    sourceUnpack p = decBlock (unpack (encRecord p)).coeffOut := by
  rw [sourceUnpack, eval_unpackRequest]

/-- The source's `unpack` undoes its `pack`. -/
theorem sourceUnpack_of_sourcePack {vs : List Int} {p : PackedRecord} (h : sourcePack vs = .ok p) :
    sourceUnpack p = vs := by
  obtain ⟨⟨hlen, hrange⟩, rfl⟩ := sourcePack_eq_ok_iff.1 h
  have hvalid := (rangeOk_iff _).1 ((rangeOk_packlRequest_iff hlen).2 hrange)
  rw [sourceUnpack_eq, encRecord_decRecord, unpack_packRecord hvalid,
    decBlock_packlRequest hlen hrange]

/-- The source's `pack` undoes its `unpack`. -/
theorem sourcePack_sourceUnpack (p : PackedRecord) : sourcePack (sourceUnpack p) = .ok p := by
  rw [sourceUnpack_eq, sourcePack_eq_ok_iff, packlRequest_decBlock, packRecord_unpack,
    decRecord_encRecord]
  exact ⟨⟨length_decBlock _, decBlock_in_range fun _ => lane_unpack_le _⟩, rfl⟩

end Sys2Proof.Machine

/-! ### The obligations -/

namespace Sys2Proof.Proofs

open Sys2Proof.Machine

/-- Settles O24: each lane UNPACK drives is `unpackLane`, in either of its two forms. -/
theorem unpackOfAnyRecord : Obligations.UnpackOfAnyRecord := by
  intro s x
  refine ⟨_, exec_unpack_eq_drive x s, rfl, rfl, fun j hj => ?_⟩
  rw [State.drive_coeffOut, lane_unpack _ hj]
  exact ⟨unpackLane_eq_or s.recIn j, unpackLane_eq_append s.recIn j⟩

/-- Settles O25: an in-range lane has no bit above bit 4. -/
theorem unpackLanesInRange : Obligations.UnpackLanesInRange := fun s x =>
  ⟨_, exec_unpack_eq_drive x s, fun _ hj =>
    ⟨lane_unpack_le _ hj, extractLsb'_five_three_of_le_31 (lane_unpack_le _ hj)⟩⟩

/-- Settles O26: the record is that of the block with the one target bit set. -/
theorem unpackSingleBit : Obligations.UnpackSingleBit := by
  intro s x n hn hrec
  refine ⟨_, exec_unpack_eq_drive x s, ?_⟩
  rw [State.drive_coeffOut, hrec, unpack_one_shiftLeft hn, laneBitPos]

/-- Settles O28: PACK drives the block's record, and UNPACK's datapath undoes PACK's on a valid block. -/
theorem roundTripBlockFirst : Obligations.RoundTripBlockFirst := by
  intro s hop hlen hvalid
  have hdecode : decodeCmd s.cmd = .pack 32#8 :=
    (decodeCmd_of_op_false hop).trans (congrArg Instr.pack hlen)
  refine ⟨_, hdecode ▸ exec_pack_of_valid hvalid, rfl, fun u huop hrec => ?_⟩
  refine ⟨_, decodeCmd_of_op_true huop ▸ exec_unpack_eq_drive _ u, ?_⟩
  rw [State.drive_coeffOut, hrec, State.drive_recOut, unpack_packRecord hvalid]

/-- Settles O29: UNPACK drives only in-range lanes, and PACK's datapath undoes UNPACK's. -/
theorem roundTripRecordFirst : Obligations.RoundTripRecordFirst := by
  intro s hop
  refine ⟨_, decodeCmd_of_op_true hop ▸ exec_unpack_eq_drive _ s, fun u hcmd hcoeff => ?_⟩
  rw [State.drive_coeffOut] at hcoeff
  have hdecode : decodeCmd u.cmd = .pack 32#8 := decodeCmd_eq_iff.2 hcmd
  have hvalid : ∀ i < 32, lane u.coeffIn i ≤ 31#8 := fun i hi => hcoeff ▸ lane_unpack_le _ hi
  refine ⟨_, hdecode ▸ exec_pack_of_valid hvalid, rfl, ?_⟩
  rw [State.drive_recOut, hcoeff, packRecord_unpack]

/-- Settles O31, from when the source's `pack` succeeds and the two round trips of the source. -/
theorem sourceRoundTrips : Obligations.SourceRoundTrips := by
  refine ⟨fun vs hlen hrange => ?_, fun vs p h => ?_, sourcePack_sourceUnpack⟩
  · have hpack := sourcePack_eq_ok_iff.2 ⟨⟨hlen, hrange⟩, rfl⟩
    exact ⟨_, hpack, sourceUnpack_of_sourcePack hpack⟩
  · obtain ⟨⟨hlen, hrange⟩, -⟩ := sourcePack_eq_ok_iff.1 h
    exact ⟨hlen, hrange, sourceUnpack_of_sourcePack h⟩

end Sys2Proof.Proofs
end

section
/-! Proofs of the obligations about the validation of PACK (42_validation.md): the range check in its
lane form and its mask form, and which of the two checks decides the status. Over the laws of State and
Eval, and the host's encodings. -/

namespace Sys2Proof.Machine

/-! ### The range check as one mask over the OR of the lanes (R87) -/

/-- A byte is at most 31 exactly when the mask 0xE0 clears it. -/
theorem le_31_iff_and_E0 : ∀ b : Byte, b ≤ 31#8 ↔ b &&& 0xE0#8 = 0#8 := by decide

/-- The mask clears the OR of some vectors exactly when it clears each of them. -/
theorem foldr_or_and_eq_zero_iff {w : Nat} (m : BitVec w) (bs : List (BitVec w)) :
    bs.foldr (· ||| ·) 0#w &&& m = 0#w ↔ ∀ b ∈ bs, b &&& m = 0#w := by
  induction bs with
  | nil => simp
  | cons b bs ih =>
    rw [List.foldr_cons, BitVec.and_or_distrib_right, BitVec.or_eq_zero_iff, ih,
      List.forall_mem_cons]

theorem rangeOk_iff_foldr_or (c : CoeffBus) : rangeOk c = true ↔
    ((List.range 32).map (lane c)).foldr (· ||| ·) 0#8 &&& 0xE0#8 = 0#8 := by
  rw [rangeOk_iff, foldr_or_and_eq_zero_iff]
  simp [le_31_iff_and_E0]

/-- The circuit ORs the lanes from the left, which gives the same byte. -/
theorem rangeOkByMask_eq_rangeOk (c : CoeffBus) : rangeOkByMask c = rangeOk c := by
  rw [Bool.eq_iff_iff, rangeOk_iff_foldr_or, ← List.foldl_eq_foldr, List.foldl_map, rangeOkByMask,
    beq_iff_eq]

/-! ### Which check decides the status (R86, R90) -/

theorem Status.code_inj {a b : Status} : a.code = b.code ↔ a = b := by
  refine ⟨fun h => Option.some.inj ?_, congrArg _⟩
  rw [← Status.ofCode_code a, h, Status.ofCode_code]

theorem packStatus_eq_invalidLength_iff (len : Len) (c : CoeffBus) :
    packStatus len c = .invalidLength ↔ len ≠ 32#8 := by
  refine ⟨?_, packStatus_of_length c⟩
  rintro h rfl
  cases hr : rangeOk c with
  | false => simp [packStatus_of_range hr] at h
  | true => simp [packStatus_of_valid hr] at h

/-- PACK always completes, and the `status` port then carries the code of its validation's outcome. -/
theorem exec_pack_status {len : Len} {s : State} {st : Status}
    (h : packStatus len s.coeffIn = st) :
    ∃ t, exec (.pack len) s = .next t ∧ t.status = st.code :=
  ⟨_, exec_pack_eq_drive len s, congrArg Status.code ((pack_status len s.coeffIn).trans h)⟩

end Sys2Proof.Machine

/-! ### The obligations -/

namespace Sys2Proof.Proofs

open Sys2Proof.Machine

/-- Settles O15: the mask distributes over the OR of the lanes, and clears a lane exactly when it is at
most 31. -/
theorem rangeCheckForms : Obligations.RangeCheckForms :=
  ⟨rangeOk_iff, rangeOk_iff_foldr_or, rangeOkByMask_eq_rangeOk, fun _ => rangeOk_packlRequest_iff⟩

/-- Settles O14: the status is InvalidLength exactly when the length check fails. -/
theorem lengthCheck : Obligations.LengthCheck := by
  intro s len
  obtain ⟨t, hexec, hstatus⟩ := exec_pack_status (len := len) (s := s) rfl
  refine ⟨t, hexec, ?_⟩
  rw [hstatus, show 1#2 = Status.invalidLength.code from rfl, Status.code_inj,
    packStatus_eq_invalidLength_iff, Ne, BitVec.toNat_eq, BitVec.toNat_ofNat]

/-- Settles O16: 31 and 33 fail the length check, and a lane of 32 fails the range check. -/
theorem validationTestList : Obligations.ValidationTestList := by
  refine ⟨fun s => exec_pack_status (packStatus_of_length s.coeffIn (by decide)),
    fun s => exec_pack_status (packStatus_of_length s.coeffIn (by decide)), fun s p hp hlane => ?_⟩
  have hgt : 31#8 < lane s.coeffIn p := by rw [hlane]; decide
  exact exec_pack_status (packStatus_of_range (rangeOk_of_lane_gt hp hgt))

end Sys2Proof.Proofs
end

section
/-! Proofs of the obligations about the status and the errors (60_exceptions.md): which status an
evaluation has, what an error leaves on the output ports, and how the host reads the `status` port. Over
the laws of State and Eval. -/

namespace Sys2Proof.Machine

/-! ### The status of an evaluation (R97) -/

theorem eval_request_status_of_unpack {s : State} (h : cmdOp s.cmd = true) :
    (eval s.request).status = .ok := by
  rw [eval_of_unpack (q := s.request) h, unpack_status]

theorem eval_request_status_of_pack {s : State} (h : cmdOp s.cmd = false) :
    (eval s.request).status = packStatus (cmdLen s.cmd) s.coeffIn := by
  rw [eval_of_pack (q := s.request) h, pack_status, State.request_cmd, State.request_coeffIn]

/-! ### What an error leaves on the ports (R95, R96, R98) -/

/-- PACK whose validation ends in an error drives that error and nothing else. -/
theorem exec_pack_eq_raise {len : Len} {s : State} {e : Status}
    (h : packStatus len s.coeffIn = e) (he : e ≠ .ok) :
    exec (.pack len) s = .next (s.drive (raise e)) := by
  subst h
  exact exec_pack_of_error he

/-- Whichever operation ran, a response other than OK carries no data. -/
theorem exec_data_of_error {i : Instr} {s t : State} (h : exec i s = .next t)
    (hne : t.status ≠ Status.ok.code) : t.recOut = 0#160 ∧ t.coeffOut = 0#256 := by
  obtain ⟨len, -, hexec⟩ | ⟨_, -, hexec⟩ := exec_cases i s
  · obtain rfl := Host.Outcome.next.inj (hexec.symm.trans h)
    rw [State.drive_status, pack_status, Ne, Status.code_inj] at hne
    exact ⟨pack_recOut_of_error hne, pack_coeffOut len s.coeffIn⟩
  · obtain rfl := Host.Outcome.next.inj (hexec.symm.trans h)
    exact absurd rfl hne

@[simp] theorem lane_zero (i : Nat) : lane 0#256 i = 0#8 := BitVec.extractLsb'_zero

/-- The all-zero block has the all-zero record. -/
@[simp] theorem packRecord_zero : packRecord 0#256 = 0#160 := by
  refine BitVec.eq_of_getLsbD_eq fun n _ => ?_
  simp [getLsbD_packRecord]

/-! ### Reading the `status` port (R94) -/

theorem Status.code_ne_three (st : Status) : st.code ≠ 3#2 := by
  cases st <;> decide

theorem State.sample_of_code {s : State} {st : Status} (h : s.status = st.code) :
    s.sample = .ok ⟨st, s.recOut, s.coeffOut⟩ := by
  rw [State.sample, h, Status.ofCode_code]

theorem State.sample_of_three {s : State} (h : s.status = 3#2) :
    s.sample = .error .statusThree := by
  obtain ⟨st, hcode, -⟩ | ⟨-, hsample⟩ := s.sample_cases
  · exact absurd (hcode.symm.trans h) st.code_ne_three
  · exact hsample

end Sys2Proof.Machine

/-! ### The obligations -/

namespace Sys2Proof.Proofs

open Sys2Proof.Machine

/-- Settles O13: the executed operation drives `eval` of the request, whose status for PACK is that of
the validation. -/
theorem statusPriority : Obligations.StatusPriority := by
  intro s
  have hcode {st : Status} (h : (eval s.request).status = st) :
      (s.drive (eval s.request)).status = st.code := congrArg Status.code h
  refine ⟨_, exec_fetch s, fun hop => hcode (eval_request_status_of_unpack hop),
    fun hop hlen => hcode ((eval_request_status_of_pack hop).trans (packStatus_of_length _ hlen)),
    fun hop hlen ⟨i, hi, hgt⟩ => hcode (st := .outOfRange) ?_,
    fun hop hlen hle => hcode (st := .ok) ?_⟩
  · rw [eval_request_status_of_pack hop, cmdLen, hlen]
    exact packStatus_of_range (rangeOk_of_lane_gt hi hgt)
  · rw [eval_request_status_of_pack hop, cmdLen, hlen]
    exact packStatus_of_valid ((rangeOk_iff _).2 hle)

/-- Settles O11: a length other than 32 fails the first check, whatever the lanes hold. -/
theorem packOfWrongLength : Obligations.PackOfWrongLength :=
  fun s _ hlen => exec_pack_eq_raise (packStatus_of_length s.coeffIn hlen) (by decide)

/-- Settles O12: one lane above 31 fails the range check, and the error does not say which. -/
theorem packOfOutOfRangeLane : Obligations.PackOfOutOfRangeLane :=
  fun _ _ hi hgt => exec_pack_eq_raise (packStatus_of_range (rangeOk_of_lane_gt hi hgt)) (by decide)

/-- Settles O17: an error carries no data, and the all-zero block is valid with the all-zero record. -/
theorem noPartialRecord : Obligations.NoPartialRecord := by
  refine ⟨fun _ _ _ => exec_data_of_error, fun s hzero => ?_⟩
  have hvalid : ∀ i < 32, lane s.coeffIn i ≤ 31#8 := fun i _ => by rw [hzero, lane_zero]; decide
  refine ⟨_, exec_pack_of_valid hvalid, rfl, ?_⟩
  rw [State.drive_recOut, hzero, packRecord_zero]

/-- Settles O43: a status's code reads back as the status, and every execution drives such a code. -/
theorem statusPortReading : Obligations.StatusPortReading := by
  refine ⟨fun _ => State.sample_of_code (st := .ok),
    fun _ => State.sample_of_code (st := .invalidLength),
    fun _ => State.sample_of_code (st := .outOfRange), fun _ => State.sample_of_three, fun i s => ?_⟩
  obtain ⟨r, hexec⟩ := exec_eq_drive i s
  exact ⟨_, hexec, r.status.code_ne_three⟩

end Sys2Proof.Proofs
end

section
/-! Proofs of the obligations about reset and hazards (70_reset_and_hazards.md): what holding a request
does, and that every host action and every step keeps the invariant. Over the laws of State, Eval and
Step. -/

namespace Sys2Proof.Machine

/-! ### Holding a request (R115) -/

/-- Held long enough, the request has its response on the outputs. -/
theorem holdFor_of_tPd_le (s : State) {t : Nat} (h : Config.tPd ≤ t) :
    s.holdFor t = s.drive (eval s.request) := by
  obtain ⟨-, hdrive⟩ | ⟨-, hlt, -⟩ := holdFor_cases s t
  · exact hdrive
  · exact absurd h (Nat.not_le.2 hlt)

/-- Settled outputs carry the response however long the request is held further. -/
theorem holdFor_of_settled {s : State} (h : s.settled = true) (t : Nat) :
    s.holdFor t = s.drive (eval s.request) := by
  obtain ⟨-, hdrive⟩ | ⟨hunsettled, -, -⟩ := holdFor_cases s t
  · exact hdrive
  · exact absurd h (Bool.eq_false_iff.1 hunsettled)

/-- Of two responses driven, the later one stands. -/
@[simp] theorem State.drive_drive (s : State) (r p : Response) :
    (s.drive r).drive p = s.drive p := rfl

/-! ### The invariant, by what each action does to the state (R115, R116, R117) -/

/-- Unsettled ports owe nothing to the request. -/
theorem portsAgree_of_unsettled {s : State} (h : s.settled = false) : s.PortsAgree :=
  fun hs => absurd hs (Bool.eq_false_iff.1 h)

theorem possible_eval (q : Request) : (eval q).Possible := ⟨q, rfl⟩

theorem inv_drive_eval {s : State} (h : s.Inv) : (s.drive (eval s.request)).Inv :=
  ⟨portsAgree_drive s, h.2⟩

theorem inv_unsettle {s : State} (h : s.Inv) : s.unsettle.Inv :=
  ⟨portsAgree_of_unsettled s.unsettle_settled, h.2⟩

/-- Recording a possible response leaves the ports and keeps every sample possible. -/
theorem inv_record {s : State} {r : Response} (h : s.Inv) (hr : r.Possible) : (s.record r).Inv := by
  obtain ⟨hports, hsampled⟩ := h
  refine ⟨hports, fun p hp => ?_⟩
  rw [State.record_sampled, List.mem_append, List.mem_singleton] at hp
  obtain hp | rfl := hp
  · exact hsampled p hp
  · exact hr

theorem inv_present {s : State} (h : s.Inv) (q : Request) : (s.present q).Inv := by
  obtain ⟨hports, hsampled⟩ := h
  refine ⟨portsAgree_present hports q, ?_⟩
  rwa [State.present_sampled]

/-- The invariant does not speak of the script, so taking its head off keeps it. -/
theorem inv_advance {s : State} (h : s.Inv) : s.advance.Inv := by
  cases hp : s.pending with
  | nil => rwa [State.advance_nil s hp]
  | cons q rest =>
    rw [State.advance_cons s q hp]
    exact inv_present (s := { s with pending := rest }) h q

theorem inv_holdFor {s : State} (h : s.Inv) (t : Nat) : (s.holdFor t).Inv := by
  obtain ⟨-, hdrive⟩ | ⟨-, -, hunsettle⟩ := holdFor_cases s t
  · exact hdrive ▸ inv_drive_eval h
  · exact hunsettle ▸ inv_unsettle h

/-- A step drives `eval`, records the response it drove, and goes on: each keeps the invariant. -/
theorem inv_step {s t : State} (h : s.Inv) (hstep : step s = .next t) : t.Inv := by
  obtain rfl := Host.Outcome.next.inj ((step_eq s).symm.trans hstep)
  exact inv_advance (inv_record (inv_drive_eval h) (possible_eval s.request))

end Sys2Proof.Machine

/-! ### The obligations -/

namespace Sys2Proof.Proofs

open Sys2Proof.Machine

/-- Settles O44, action by action; placing a command word is presenting a request. -/
theorem invariantIsKept : Obligations.InvariantIsKept :=
  ⟨fun _ _ => inv_step, fun _ q h => inv_present h q, fun _ time h => inv_holdFor h time,
    fun _ _ _ h => inv_present h _⟩

/-- Settles O41, by whether the request is the one already held. -/
theorem presentingUnsettles : Obligations.PresentingUnsettles := by
  refine fun s q => ⟨fun hne => s.present_other q hne, ?_⟩
  rintro rfl
  exact s.present_same

/-- Settles O42: the hold drives what the fetched operation drives, and a further hold drives it again. -/
theorem heldRequestSettles : Obligations.HeldRequestSettles := by
  intro s time more h
  rw [holdFor_of_tPd_le s h]
  refine ⟨exec_fetch s, s.drive_settled _, ?_⟩
  rw [holdFor_of_settled (s.drive_settled _), State.drive_request, State.drive_drive]

/-- Settles O45: reset is unsettled, with nothing sampled. -/
theorem invariantAtReset : Obligations.InvariantAtReset :=
  ⟨portsAgree_of_unsettled rfl, fun _ hr => absurd hr List.not_mem_nil⟩

/-- Settles O46: a step samples `eval` of the request presented, after the empty observation of reset. -/
theorem powerUp : Obligations.PowerUp := by
  refine ⟨rfl, rfl, rfl, fun q => ?_⟩
  obtain ⟨t, hstep, hsampled, -, -⟩ := step_observes_eval (State.reset.present q)
  rw [State.present_sampled, State.present_request] at hsampled
  exact ⟨t, hstep, hsampled⟩

end Sys2Proof.Proofs
end
